-- ==== Sys2Proof/Word.lean ====
section
/-! DEFINITION. The word, byte, register-index and memory types (spec: 00_scope.md R5, R15; 10_state.md R21). -/

namespace Sys2Proof

/-- A 32-bit word: a register value, an address, an instruction word (R5). -/
abbrev Word := BitVec 32

/-- One byte of memory (R50). -/
abbrev Byte := BitVec 8

/-- A register index, 0 to 31: valid by construction, since the fields that name one have five bits (R21). -/
abbrev Reg := Fin 32

/-- Memory as data: (address, byte) pairs in the canonical form `Memory.wf` of Machine/Ops.lean. -/
abbrev Memory := List Host.Cell

end Sys2Proof
end

