-- ==== Sys2Proof/Syntax.lean ====
section
/-! DEFINITION. The instructions as syntax: the 52 mnemonics of 30_encoding.md R100 with the operands of R99, the formats
and opcode classes of R97, and the three outcomes of the Decoder (R95). -/

namespace Sys2Proof

/-- One constructor per row of spec/opcode_table.json (R100), its operands in the order of R99. An immediate is the
signed integer the Decoder reconstructs (R89 to R91, R93); `imm20` is the raw unsigned field (R92); `shamt` and `uimm` are
0 to 31, `csr` is a 12-bit number (R94). -/
inductive Instr where
  | lui (rd : Reg) (imm20 : BitVec 20)
  | auipc (rd : Reg) (imm20 : BitVec 20)
  | jal (rd : Reg) (imm : Int)
  | jalr (rd rs1 : Reg) (imm : Int)
  | beq (rs1 rs2 : Reg) (imm : Int)
  | bne (rs1 rs2 : Reg) (imm : Int)
  | blt (rs1 rs2 : Reg) (imm : Int)
  | bge (rs1 rs2 : Reg) (imm : Int)
  | bltu (rs1 rs2 : Reg) (imm : Int)
  | bgeu (rs1 rs2 : Reg) (imm : Int)
  | lb (rd rs1 : Reg) (imm : Int)
  | lh (rd rs1 : Reg) (imm : Int)
  | lw (rd rs1 : Reg) (imm : Int)
  | lbu (rd rs1 : Reg) (imm : Int)
  | lhu (rd rs1 : Reg) (imm : Int)
  | sb (rs2 rs1 : Reg) (imm : Int)
  | sh (rs2 rs1 : Reg) (imm : Int)
  | sw (rs2 rs1 : Reg) (imm : Int)
  | addi (rd rs1 : Reg) (imm : Int)
  | slti (rd rs1 : Reg) (imm : Int)
  | sltiu (rd rs1 : Reg) (imm : Int)
  | xori (rd rs1 : Reg) (imm : Int)
  | ori (rd rs1 : Reg) (imm : Int)
  | andi (rd rs1 : Reg) (imm : Int)
  | slli (rd rs1 : Reg) (shamt : Fin 32)
  | srli (rd rs1 : Reg) (shamt : Fin 32)
  | srai (rd rs1 : Reg) (shamt : Fin 32)
  | add (rd rs1 rs2 : Reg)
  | sub (rd rs1 rs2 : Reg)
  | sll (rd rs1 rs2 : Reg)
  | slt (rd rs1 rs2 : Reg)
  | sltu (rd rs1 rs2 : Reg)
  | xor (rd rs1 rs2 : Reg)
  | srl (rd rs1 rs2 : Reg)
  | sra (rd rs1 rs2 : Reg)
  | or (rd rs1 rs2 : Reg)
  | and (rd rs1 rs2 : Reg)
  | mul (rd rs1 rs2 : Reg)
  | div (rd rs1 rs2 : Reg)
  | divu (rd rs1 rs2 : Reg)
  | rem (rd rs1 rs2 : Reg)
  | remu (rd rs1 rs2 : Reg)
  | ecall
  | ebreak
  | fence
  | fenceI
  | csrrw (rd : Reg) (csr : BitVec 12) (rs1 : Reg)
  | csrrs (rd : Reg) (csr : BitVec 12) (rs1 : Reg)
  | csrrc (rd : Reg) (csr : BitVec 12) (rs1 : Reg)
  | csrrwi (rd : Reg) (csr : BitVec 12) (uimm : Fin 32)
  | csrrsi (rd : Reg) (csr : BitVec 12) (uimm : Fin 32)
  | csrrci (rd : Reg) (csr : BitVec 12) (uimm : Fin 32)
  deriving DecidableEq, Repr

/-- The 52 mnemonics (R100), without operands: what a trace record and a diagnostic carry (R139, R296). -/
inductive Mnemonic where
  | lui | auipc | jal | jalr
  | beq | bne | blt | bge | bltu | bgeu
  | lb | lh | lw | lbu | lhu
  | sb | sh | sw
  | addi | slti | sltiu | xori | ori | andi | slli | srli | srai
  | add | sub | sll | slt | sltu | xor | srl | sra | or | and
  | mul | div | divu | rem | remu
  | ecall | ebreak | fence | fenceI
  | csrrw | csrrs | csrrc | csrrwi | csrrsi | csrrci
  deriving DecidableEq, Repr

/-- The six base encodings (R83 to R88). -/
inductive Format where
  | r | i | s | b | u | j
  deriving DecidableEq, Repr

/-- The named bit fields of the Instruction Format Table (R82 to R88). `imm hi lo` holds immediate bits `hi` to `lo`. -/
inductive Field where
  | opcode | rd | funct3 | rs1 | rs2 | funct7
  | imm (hi lo : Nat)
  deriving DecidableEq, Repr

/-- One field of a format: its bits `hi` down to `lo` of the word. -/
structure FieldRange where
  field : Field
  hi : Nat
  lo : Nat
  deriving DecidableEq, Repr

/-- The 11 recognised opcodes by name (R97). -/
inductive OpcodeClass where
  | lui | auipc | jal | jalr | branch | load | store | opImm | op | miscMem | system
  deriving DecidableEq, Repr

/-- The Decoder's three outcomes (R95). -/
inductive DecodeResult where
  /-- `w[6:0]` is not in the format map; carries the 7-bit opcode. -/
  | unknownOpcode (opcode : BitVec 7)
  /-- The opcode is in the map but no known combination matches: the "unknown" mnemonic, no operands. -/
  | unknown
  /-- An instruction, its operands reconstructed. -/
  | instr (i : Instr)
  deriving DecidableEq, Repr

/-- One operand of a decoded instruction by kind (R99, R273): how it is displayed depends on the kind alone. -/
inductive Operand where
  | reg (r : Reg)
  | signed (v : Int)
  | unsigned (v : Nat)
  | hex (v : Nat)
  deriving DecidableEq, Repr

end Sys2Proof
end

