-- ==== Sys2Proof/WellFormed.lean ====
section
/-! DEFINITION. Which instructions an encoding can hold: the operand ranges of 30_encoding.md R89 to R93 and R107.
Register indices, `shamt`, `uimm`, `csr` and `imm20` are in range by their types (R92, R94, R99). -/

namespace Sys2Proof

/-- The range of an I- or S-type immediate (R89, R90): 12 bits, signed. -/
def immIOk (imm : Int) : Bool := decide (-2048 ≤ imm) && decide (imm ≤ 2047)

/-- The range of a B-type immediate (R91, R107): 13 bits, signed, even. -/
def immBOk (imm : Int) : Bool := decide (-4096 ≤ imm) && decide (imm ≤ 4094) && decide (imm % 2 = 0)

/-- The range of a J-type immediate (R93, R107): 21 bits, signed, even. -/
def immJOk (imm : Int) : Bool := decide (-1048576 ≤ imm) && decide (imm ≤ 1048574) && decide (imm % 2 = 0)

/-- An instruction whose operands are in the ranges the encodings admit (R108's last paragraph). -/
def Instr.wellFormed : Instr → Bool
  | .jal _ imm => immJOk imm
  | .jalr _ _ imm => immIOk imm
  | .beq _ _ imm => immBOk imm
  | .bne _ _ imm => immBOk imm
  | .blt _ _ imm => immBOk imm
  | .bge _ _ imm => immBOk imm
  | .bltu _ _ imm => immBOk imm
  | .bgeu _ _ imm => immBOk imm
  | .lb _ _ imm => immIOk imm
  | .lh _ _ imm => immIOk imm
  | .lw _ _ imm => immIOk imm
  | .lbu _ _ imm => immIOk imm
  | .lhu _ _ imm => immIOk imm
  | .sb _ _ imm => immIOk imm
  | .sh _ _ imm => immIOk imm
  | .sw _ _ imm => immIOk imm
  | .addi _ _ imm => immIOk imm
  | .slti _ _ imm => immIOk imm
  | .sltiu _ _ imm => immIOk imm
  | .xori _ _ imm => immIOk imm
  | .ori _ _ imm => immIOk imm
  | .andi _ _ imm => immIOk imm
  | .lui _ _ => true
  | .auipc _ _ => true
  | .slli _ _ _ => true
  | .srli _ _ _ => true
  | .srai _ _ _ => true
  | .add _ _ _ => true
  | .sub _ _ _ => true
  | .sll _ _ _ => true
  | .slt _ _ _ => true
  | .sltu _ _ _ => true
  | .xor _ _ _ => true
  | .srl _ _ _ => true
  | .sra _ _ _ => true
  | .or _ _ _ => true
  | .and _ _ _ => true
  | .mul _ _ _ => true
  | .div _ _ _ => true
  | .divu _ _ _ => true
  | .rem _ _ _ => true
  | .remu _ _ _ => true
  | .ecall => true
  | .ebreak => true
  | .fence => true
  | .fenceI => true
  | .csrrw _ _ _ => true
  | .csrrs _ _ _ => true
  | .csrrc _ _ _ => true
  | .csrrwi _ _ _ => true
  | .csrrsi _ _ _ => true
  | .csrrci _ _ _ => true

end Sys2Proof
end

