-- ==== Sys2Proof/Decode.lean ====
section
/-! DEFINITION. The Bitfield Extractor, the Instruction Format Table, the Decoder and, after it, the encoder
(spec: 30_encoding.md R80 to R108). The numeric opcode and funct values are the spec's own, which it marks as supplied
from general knowledge (R97, R98, D1): notes/assumptions/7.md. -/

namespace Sys2Proof

/-! ### Numbers (00_scope.md R16) -/

/-- `u32(v)`: `v` modulo 2^32, also of a negative `v`. -/
def u32 (v : Int) : Word := BitVec.ofInt 32 v

/-- `s32(v)`: a 32-bit value read as signed. -/
def s32 (v : Word) : Int := v.toInt

/-- `sext_N(v)`: the low `n` bits of `v` read as signed. -/
def sext (n : Nat) (v : Nat) : Int := (BitVec.ofNat n v).toInt

/-- `zext_N(v)`: the low `n` bits of `v`, unsigned. -/
def zext (n : Nat) (v : Nat) : Nat := v % 2 ^ n

/-! ### The Bitfield Extractor and the fields (R81, R82) -/

/-- `extract(w, lsb, msb)`: bits `msb` down to `lsb` of `w`, right-shifted to start at bit 0 (R81). -/
def extract (w : Word) (lsb msb : Nat) : BitVec (msb - lsb + 1) := w.extractLsb' lsb (msb - lsb + 1)

/-- A 5-bit field as a register index (R21, R82); also `shamt` and `uimm` (R94). -/
def regOf (b : BitVec 5) : Reg := ⟨b.toNat, b.isLt⟩

/-- `opcode = w[6:0]`. -/
def opcodeOf (w : Word) : BitVec 7 := extract w 0 6
/-- `rd = w[11:7]`. -/
def rdOf (w : Word) : Reg := regOf (extract w 7 11)
/-- `funct3 = w[14:12]`. -/
def funct3Of (w : Word) : BitVec 3 := extract w 12 14
/-- `rs1 = w[19:15]`. -/
def rs1Of (w : Word) : Reg := regOf (extract w 15 19)
/-- `rs2 = w[24:20]`. -/
def rs2Of (w : Word) : Reg := regOf (extract w 20 24)
/-- `funct7 = w[31:25]`. -/
def funct7Of (w : Word) : BitVec 7 := extract w 25 31
/-- `shamt = w[24:20]` (R94 a). -/
def shamtOf (w : Word) : Fin 32 := regOf (extract w 20 24)
/-- `csr = w[31:20]` (R94 b). -/
def csrOf (w : Word) : BitVec 12 := extract w 20 31
/-- `uimm = w[19:15]` (R94 b). -/
def uimmOf (w : Word) : Fin 32 := regOf (extract w 15 19)

/-! ### The immediates (R89 to R93) -/

/-- `imm_I = sext_12(w[31:20])` (R89). -/
def immI (w : Word) : Int := (extract w 20 31).toInt

/-- `imm_S = sext_12(w[31:25] ++ w[11:7])` (R90). -/
def immS (w : Word) : Int := (extract w 25 31 ++ extract w 7 11).toInt

/-- `imm_B = sext_13(w[31] ++ w[7] ++ w[30:25] ++ w[11:8] ++ 0)`: already the byte offset (R91). -/
def immB (w : Word) : Int :=
  (extract w 31 31 ++ extract w 7 7 ++ extract w 25 30 ++ extract w 8 11 ++ 0#1).toInt

/-- `imm20 = w[31:12]`, the raw unsigned field (R92). -/
def imm20Of (w : Word) : BitVec 20 := extract w 12 31

/-- `imm_J = sext_21(w[31] ++ w[19:12] ++ w[20] ++ w[30:21] ++ 0)`: already the byte offset (R93). -/
def immJ (w : Word) : Int :=
  (extract w 31 31 ++ extract w 12 19 ++ extract w 20 20 ++ extract w 21 30 ++ 0#1).toInt

/-! ### The format map (R83 to R88, R97) -/

/-- The Instruction Format Table: the named bit-field ranges of each format, bit 31 down to bit 0 (R83 to R88). -/
def Format.layout : Format → List FieldRange
  | .r => [⟨.funct7, 31, 25⟩, ⟨.rs2, 24, 20⟩, ⟨.rs1, 19, 15⟩, ⟨.funct3, 14, 12⟩, ⟨.rd, 11, 7⟩, ⟨.opcode, 6, 0⟩]
  | .i => [⟨.imm 11 0, 31, 20⟩, ⟨.rs1, 19, 15⟩, ⟨.funct3, 14, 12⟩, ⟨.rd, 11, 7⟩, ⟨.opcode, 6, 0⟩]
  | .s => [⟨.imm 11 5, 31, 25⟩, ⟨.rs2, 24, 20⟩, ⟨.rs1, 19, 15⟩, ⟨.funct3, 14, 12⟩, ⟨.imm 4 0, 11, 7⟩, ⟨.opcode, 6, 0⟩]
  | .b => [⟨.imm 12 12, 31, 31⟩, ⟨.imm 10 5, 30, 25⟩, ⟨.rs2, 24, 20⟩, ⟨.rs1, 19, 15⟩, ⟨.funct3, 14, 12⟩,
      ⟨.imm 4 1, 11, 8⟩, ⟨.imm 11 11, 7, 7⟩, ⟨.opcode, 6, 0⟩]
  | .u => [⟨.imm 31 12, 31, 12⟩, ⟨.rd, 11, 7⟩, ⟨.opcode, 6, 0⟩]
  | .j => [⟨.imm 20 20, 31, 31⟩, ⟨.imm 10 1, 30, 21⟩, ⟨.imm 11 11, 20, 20⟩, ⟨.imm 19 12, 19, 12⟩, ⟨.rd, 11, 7⟩,
      ⟨.opcode, 6, 0⟩]

/-- The 11 recognised opcodes; any other has no format (R97). -/
def opcodeClass (op : BitVec 7) : Option OpcodeClass :=
  match op with
  | 0b0110111#7 => some .lui
  | 0b0010111#7 => some .auipc
  | 0b1101111#7 => some .jal
  | 0b1100111#7 => some .jalr
  | 0b1100011#7 => some .branch
  | 0b0000011#7 => some .load
  | 0b0100011#7 => some .store
  | 0b0010011#7 => some .opImm
  | 0b0110011#7 => some .op
  | 0b0001111#7 => some .miscMem
  | 0b1110011#7 => some .system
  | _ => none

/-- The format of each recognised opcode (R97). -/
def OpcodeClass.format : OpcodeClass → Format
  | .lui => .u
  | .auipc => .u
  | .jal => .j
  | .jalr => .i
  | .branch => .b
  | .load => .i
  | .store => .s
  | .opImm => .i
  | .op => .r
  | .miscMem => .i
  | .system => .i

/-- `FORMAT_OF` (R96 step 2). -/
def formatOf (op : BitVec 7) : Option Format := (opcodeClass op).map OpcodeClass.format

/-! ### The dispatch tables (R98), one function per opcode that has one -/

/-- BRANCH, by funct3. -/
def decodeBranch (w : Word) : Option Instr :=
  match funct3Of w with
  | 0b000#3 => some (.beq (rs1Of w) (rs2Of w) (immB w))
  | 0b001#3 => some (.bne (rs1Of w) (rs2Of w) (immB w))
  | 0b100#3 => some (.blt (rs1Of w) (rs2Of w) (immB w))
  | 0b101#3 => some (.bge (rs1Of w) (rs2Of w) (immB w))
  | 0b110#3 => some (.bltu (rs1Of w) (rs2Of w) (immB w))
  | 0b111#3 => some (.bgeu (rs1Of w) (rs2Of w) (immB w))
  | _ => none

/-- LOAD, by funct3. -/
def decodeLoad (w : Word) : Option Instr :=
  match funct3Of w with
  | 0b000#3 => some (.lb (rdOf w) (rs1Of w) (immI w))
  | 0b001#3 => some (.lh (rdOf w) (rs1Of w) (immI w))
  | 0b010#3 => some (.lw (rdOf w) (rs1Of w) (immI w))
  | 0b100#3 => some (.lbu (rdOf w) (rs1Of w) (immI w))
  | 0b101#3 => some (.lhu (rdOf w) (rs1Of w) (immI w))
  | _ => none

/-- STORE, by funct3. -/
def decodeStore (w : Word) : Option Instr :=
  match funct3Of w with
  | 0b000#3 => some (.sb (rs2Of w) (rs1Of w) (immS w))
  | 0b001#3 => some (.sh (rs2Of w) (rs1Of w) (immS w))
  | 0b010#3 => some (.sw (rs2Of w) (rs1Of w) (immS w))
  | _ => none

/-- OP-IMM, by funct3, and for the shifts by funct7 too (D10). -/
def decodeOpImm (w : Word) : Option Instr :=
  match funct3Of w with
  | 0b000#3 => some (.addi (rdOf w) (rs1Of w) (immI w))
  | 0b010#3 => some (.slti (rdOf w) (rs1Of w) (immI w))
  | 0b011#3 => some (.sltiu (rdOf w) (rs1Of w) (immI w))
  | 0b100#3 => some (.xori (rdOf w) (rs1Of w) (immI w))
  | 0b110#3 => some (.ori (rdOf w) (rs1Of w) (immI w))
  | 0b111#3 => some (.andi (rdOf w) (rs1Of w) (immI w))
  | 0b001#3 =>
    match funct7Of w with
    | 0b0000000#7 => some (.slli (rdOf w) (rs1Of w) (shamtOf w))
    | _ => none
  | 0b101#3 =>
    match funct7Of w with
    | 0b0000000#7 => some (.srli (rdOf w) (rs1Of w) (shamtOf w))
    | 0b0100000#7 => some (.srai (rdOf w) (rs1Of w) (shamtOf w))
    | _ => none
  | _ => none

/-- OP, by funct7 and funct3; `mulh`, `mulhsu`, `mulhu` are unknown (D2). -/
def decodeOp (w : Word) : Option Instr :=
  match funct7Of w with
  | 0b0000000#7 =>
    match funct3Of w with
    | 0b000#3 => some (.add (rdOf w) (rs1Of w) (rs2Of w))
    | 0b001#3 => some (.sll (rdOf w) (rs1Of w) (rs2Of w))
    | 0b010#3 => some (.slt (rdOf w) (rs1Of w) (rs2Of w))
    | 0b011#3 => some (.sltu (rdOf w) (rs1Of w) (rs2Of w))
    | 0b100#3 => some (.xor (rdOf w) (rs1Of w) (rs2Of w))
    | 0b101#3 => some (.srl (rdOf w) (rs1Of w) (rs2Of w))
    | 0b110#3 => some (.or (rdOf w) (rs1Of w) (rs2Of w))
    | 0b111#3 => some (.and (rdOf w) (rs1Of w) (rs2Of w))
    | _ => none
  | 0b0100000#7 =>
    match funct3Of w with
    | 0b000#3 => some (.sub (rdOf w) (rs1Of w) (rs2Of w))
    | 0b101#3 => some (.sra (rdOf w) (rs1Of w) (rs2Of w))
    | _ => none
  | 0b0000001#7 =>
    match funct3Of w with
    | 0b000#3 => some (.mul (rdOf w) (rs1Of w) (rs2Of w))
    | 0b100#3 => some (.div (rdOf w) (rs1Of w) (rs2Of w))
    | 0b101#3 => some (.divu (rdOf w) (rs1Of w) (rs2Of w))
    | 0b110#3 => some (.rem (rdOf w) (rs1Of w) (rs2Of w))
    | 0b111#3 => some (.remu (rdOf w) (rs1Of w) (rs2Of w))
    | _ => none
  | _ => none

/-- MISC-MEM, by funct3; no other bit is examined (D15). -/
def decodeMiscMem (w : Word) : Option Instr :=
  match funct3Of w with
  | 0b000#3 => some .fence
  | 0b001#3 => some .fenceI
  | _ => none

/-- SYSTEM: the whole word for `ecall` and `ebreak` (D14), funct3 alone for the CSR instructions. -/
def decodeSystem (w : Word) : Option Instr :=
  match funct3Of w with
  | 0b000#3 => if w = 0x00000073#32 then some .ecall else if w = 0x00100073#32 then some .ebreak else none
  | 0b001#3 => some (.csrrw (rdOf w) (csrOf w) (rs1Of w))
  | 0b010#3 => some (.csrrs (rdOf w) (csrOf w) (rs1Of w))
  | 0b011#3 => some (.csrrc (rdOf w) (csrOf w) (rs1Of w))
  | 0b101#3 => some (.csrrwi (rdOf w) (csrOf w) (uimmOf w))
  | 0b110#3 => some (.csrrsi (rdOf w) (csrOf w) (uimmOf w))
  | 0b111#3 => some (.csrrci (rdOf w) (csrOf w) (uimmOf w))
  | _ => none

/-- The row of R98 for a word whose opcode is known, or none. -/
def decodeClass (c : OpcodeClass) (w : Word) : Option Instr :=
  match c with
  | .lui => some (.lui (rdOf w) (imm20Of w))
  | .auipc => some (.auipc (rdOf w) (imm20Of w))
  | .jal => some (.jal (rdOf w) (immJ w))
  | .jalr =>
    match funct3Of w with
    | 0b000#3 => some (.jalr (rdOf w) (rs1Of w) (immI w))
    | _ => none
  | .branch => decodeBranch w
  | .load => decodeLoad w
  | .store => decodeStore w
  | .opImm => decodeOpImm w
  | .op => decodeOp w
  | .miscMem => decodeMiscMem w
  | .system => decodeSystem w

/-- The Decoder (R95, R96): total on all words, a function of the word alone, shared by the Executor and the
Disassembler (R14). -/
def decode (w : Word) : DecodeResult :=
  match opcodeClass (opcodeOf w) with
  | none => .unknownOpcode (opcodeOf w)
  | some c =>
    match decodeClass c w with
    | some i => .instr i
    | none => .unknown

/-! ### Bytes -/

/-- The word whose bytes, at ascending addresses, are these four: the first is `w[7:0]` (R52, R80). -/
def wordOfBytes (b0 b1 b2 b3 : Byte) : Word := b3 ++ b2 ++ b1 ++ b0

/-- Byte `k` of a word in memory order (R52). -/
def byteOfWord (w : Word) (k : Nat) : Byte := w.extractLsb' (8 * k) 8

/-- The Decoder on the four bytes of an instruction as they lie in memory. -/
def decodeBytes (b0 b1 b2 b3 : Byte) : DecodeResult := decode (wordOfBytes b0 b1 b2 b3)

/-- The instruction of a decode result, if there is one. -/
def DecodeResult.instr? : DecodeResult → Option Instr
  | .instr i => some i
  | .unknown => none
  | .unknownOpcode _ => none

/-- The host's question: the instruction this decoder reads from the instruction whose bits, numbered as
spec/opcode_table.json numbers them, are the low `nbits` bits of `w` (every bit above is 0). Every row has 32 bits (R80). -/
def decodeTableWord (nbits w : Nat) : Option Instr :=
  let v : Word := BitVec.ofNat 32 (w % 2 ^ nbits)
  (decodeBytes (byteOfWord v 0) (byteOfWord v 1) (byteOfWord v 2) (byteOfWord v 3)).instr?

/-! ### The mnemonic and the operand list of an instruction (R99, R100) -/

/-- The mnemonic of a decoded instruction. -/
def Instr.mnemonic : Instr → Mnemonic
  | .lui _ _ => .lui
  | .auipc _ _ => .auipc
  | .jal _ _ => .jal
  | .jalr _ _ _ => .jalr
  | .beq _ _ _ => .beq
  | .bne _ _ _ => .bne
  | .blt _ _ _ => .blt
  | .bge _ _ _ => .bge
  | .bltu _ _ _ => .bltu
  | .bgeu _ _ _ => .bgeu
  | .lb _ _ _ => .lb
  | .lh _ _ _ => .lh
  | .lw _ _ _ => .lw
  | .lbu _ _ _ => .lbu
  | .lhu _ _ _ => .lhu
  | .sb _ _ _ => .sb
  | .sh _ _ _ => .sh
  | .sw _ _ _ => .sw
  | .addi _ _ _ => .addi
  | .slti _ _ _ => .slti
  | .sltiu _ _ _ => .sltiu
  | .xori _ _ _ => .xori
  | .ori _ _ _ => .ori
  | .andi _ _ _ => .andi
  | .slli _ _ _ => .slli
  | .srli _ _ _ => .srli
  | .srai _ _ _ => .srai
  | .add _ _ _ => .add
  | .sub _ _ _ => .sub
  | .sll _ _ _ => .sll
  | .slt _ _ _ => .slt
  | .sltu _ _ _ => .sltu
  | .xor _ _ _ => .xor
  | .srl _ _ _ => .srl
  | .sra _ _ _ => .sra
  | .or _ _ _ => .or
  | .and _ _ _ => .and
  | .mul _ _ _ => .mul
  | .div _ _ _ => .div
  | .divu _ _ _ => .divu
  | .rem _ _ _ => .rem
  | .remu _ _ _ => .remu
  | .ecall => .ecall
  | .ebreak => .ebreak
  | .fence => .fence
  | .fenceI => .fenceI
  | .csrrw _ _ _ => .csrrw
  | .csrrs _ _ _ => .csrrs
  | .csrrc _ _ _ => .csrrc
  | .csrrwi _ _ _ => .csrrwi
  | .csrrsi _ _ _ => .csrrsi
  | .csrrci _ _ _ => .csrrci

/-- The operand list in the order of R99, each operand with the kind R273 displays it by. -/
def Instr.operands : Instr → List Operand
  | .lui rd imm20 => [.reg rd, .hex imm20.toNat]
  | .auipc rd imm20 => [.reg rd, .hex imm20.toNat]
  | .jal rd imm => [.reg rd, .signed imm]
  | .jalr rd rs1 imm => [.reg rd, .reg rs1, .signed imm]
  | .beq rs1 rs2 imm => [.reg rs1, .reg rs2, .signed imm]
  | .bne rs1 rs2 imm => [.reg rs1, .reg rs2, .signed imm]
  | .blt rs1 rs2 imm => [.reg rs1, .reg rs2, .signed imm]
  | .bge rs1 rs2 imm => [.reg rs1, .reg rs2, .signed imm]
  | .bltu rs1 rs2 imm => [.reg rs1, .reg rs2, .signed imm]
  | .bgeu rs1 rs2 imm => [.reg rs1, .reg rs2, .signed imm]
  | .lb rd rs1 imm => [.reg rd, .reg rs1, .signed imm]
  | .lh rd rs1 imm => [.reg rd, .reg rs1, .signed imm]
  | .lw rd rs1 imm => [.reg rd, .reg rs1, .signed imm]
  | .lbu rd rs1 imm => [.reg rd, .reg rs1, .signed imm]
  | .lhu rd rs1 imm => [.reg rd, .reg rs1, .signed imm]
  | .sb rs2 rs1 imm => [.reg rs2, .reg rs1, .signed imm]
  | .sh rs2 rs1 imm => [.reg rs2, .reg rs1, .signed imm]
  | .sw rs2 rs1 imm => [.reg rs2, .reg rs1, .signed imm]
  | .addi rd rs1 imm => [.reg rd, .reg rs1, .signed imm]
  | .slti rd rs1 imm => [.reg rd, .reg rs1, .signed imm]
  | .sltiu rd rs1 imm => [.reg rd, .reg rs1, .signed imm]
  | .xori rd rs1 imm => [.reg rd, .reg rs1, .signed imm]
  | .ori rd rs1 imm => [.reg rd, .reg rs1, .signed imm]
  | .andi rd rs1 imm => [.reg rd, .reg rs1, .signed imm]
  | .slli rd rs1 shamt => [.reg rd, .reg rs1, .unsigned shamt.val]
  | .srli rd rs1 shamt => [.reg rd, .reg rs1, .unsigned shamt.val]
  | .srai rd rs1 shamt => [.reg rd, .reg rs1, .unsigned shamt.val]
  | .add rd rs1 rs2 => [.reg rd, .reg rs1, .reg rs2]
  | .sub rd rs1 rs2 => [.reg rd, .reg rs1, .reg rs2]
  | .sll rd rs1 rs2 => [.reg rd, .reg rs1, .reg rs2]
  | .slt rd rs1 rs2 => [.reg rd, .reg rs1, .reg rs2]
  | .sltu rd rs1 rs2 => [.reg rd, .reg rs1, .reg rs2]
  | .xor rd rs1 rs2 => [.reg rd, .reg rs1, .reg rs2]
  | .srl rd rs1 rs2 => [.reg rd, .reg rs1, .reg rs2]
  | .sra rd rs1 rs2 => [.reg rd, .reg rs1, .reg rs2]
  | .or rd rs1 rs2 => [.reg rd, .reg rs1, .reg rs2]
  | .and rd rs1 rs2 => [.reg rd, .reg rs1, .reg rs2]
  | .mul rd rs1 rs2 => [.reg rd, .reg rs1, .reg rs2]
  | .div rd rs1 rs2 => [.reg rd, .reg rs1, .reg rs2]
  | .divu rd rs1 rs2 => [.reg rd, .reg rs1, .reg rs2]
  | .rem rd rs1 rs2 => [.reg rd, .reg rs1, .reg rs2]
  | .remu rd rs1 rs2 => [.reg rd, .reg rs1, .reg rs2]
  | .ecall => []
  | .ebreak => []
  | .fence => []
  | .fenceI => []
  | .csrrw rd csr rs1 => [.reg rd, .hex csr.toNat, .reg rs1]
  | .csrrs rd csr rs1 => [.reg rd, .hex csr.toNat, .reg rs1]
  | .csrrc rd csr rs1 => [.reg rd, .hex csr.toNat, .reg rs1]
  | .csrrwi rd csr uimm => [.reg rd, .hex csr.toNat, .unsigned uimm.val]
  | .csrrsi rd csr uimm => [.reg rd, .hex csr.toNat, .unsigned uimm.val]
  | .csrrci rd csr uimm => [.reg rd, .hex csr.toNat, .unsigned uimm.val]

/-! ### The encoder (R108), the inverse of R83 to R94 -/

/-- A register index, `shamt` or `uimm` as its 5-bit field. -/
def regBits (r : Reg) : BitVec 5 := BitVec.ofNat 5 r.val

/-- The opcode value of each class (R97). -/
def OpcodeClass.code : OpcodeClass → BitVec 7
  | .lui => 0b0110111#7
  | .auipc => 0b0010111#7
  | .jal => 0b1101111#7
  | .jalr => 0b1100111#7
  | .branch => 0b1100011#7
  | .load => 0b0000011#7
  | .store => 0b0100011#7
  | .opImm => 0b0010011#7
  | .op => 0b0110011#7
  | .miscMem => 0b0001111#7
  | .system => 0b1110011#7

/-- R-type (R83): funct7, rs2, rs1, funct3, rd, opcode. Also the immediate shifts, `shamt` in place of rs2 (R94 a). -/
def encodeR (f7 : BitVec 7) (rs2 rs1 : Reg) (f3 : BitVec 3) (rd : Reg) (c : OpcodeClass) : Word :=
  f7 ++ regBits rs2 ++ regBits rs1 ++ f3 ++ regBits rd ++ c.code

/-- I-type (R84), the 12-bit field given as bits. -/
def encodeI (imm : BitVec 12) (rs1 : Reg) (f3 : BitVec 3) (rd : Reg) (c : OpcodeClass) : Word :=
  imm ++ regBits rs1 ++ f3 ++ regBits rd ++ c.code

/-- S-type (R85): imm[11:5], rs2, rs1, funct3, imm[4:0], opcode. -/
def encodeS (imm : BitVec 12) (rs2 rs1 : Reg) (f3 : BitVec 3) (c : OpcodeClass) : Word :=
  imm.extractLsb' 5 7 ++ regBits rs2 ++ regBits rs1 ++ f3 ++ imm.extractLsb' 0 5 ++ c.code

/-- B-type (R86): imm[12], imm[10:5], rs2, rs1, funct3, imm[4:1], imm[11], opcode. -/
def encodeB (imm : BitVec 13) (rs2 rs1 : Reg) (f3 : BitVec 3) (c : OpcodeClass) : Word :=
  imm.extractLsb' 12 1 ++ imm.extractLsb' 5 6 ++ regBits rs2 ++ regBits rs1 ++ f3 ++ imm.extractLsb' 1 4 ++
    imm.extractLsb' 11 1 ++ c.code

/-- U-type (R87): imm[31:12], rd, opcode. -/
def encodeU (imm20 : BitVec 20) (rd : Reg) (c : OpcodeClass) : Word :=
  imm20 ++ regBits rd ++ c.code

/-- J-type (R88): imm[20], imm[10:1], imm[11], imm[19:12], rd, opcode. -/
def encodeJ (imm : BitVec 21) (rd : Reg) (c : OpcodeClass) : Word :=
  imm.extractLsb' 20 1 ++ imm.extractLsb' 1 10 ++ imm.extractLsb' 11 1 ++ imm.extractLsb' 12 8 ++ regBits rd ++ c.code

/-- The word of an instruction (R108): its format with the selectors of R98 and its operands; an immediate is taken
modulo 2^12, 2^13 or 2^21. `fence` and `fence.i` encode as their match words. -/
def encode : Instr → Word
  | .lui rd imm20 => encodeU imm20 rd .lui
  | .auipc rd imm20 => encodeU imm20 rd .auipc
  | .jal rd imm => encodeJ (BitVec.ofInt 21 imm) rd .jal
  | .jalr rd rs1 imm => encodeI (BitVec.ofInt 12 imm) rs1 0b000#3 rd .jalr
  | .beq rs1 rs2 imm => encodeB (BitVec.ofInt 13 imm) rs2 rs1 0b000#3 .branch
  | .bne rs1 rs2 imm => encodeB (BitVec.ofInt 13 imm) rs2 rs1 0b001#3 .branch
  | .blt rs1 rs2 imm => encodeB (BitVec.ofInt 13 imm) rs2 rs1 0b100#3 .branch
  | .bge rs1 rs2 imm => encodeB (BitVec.ofInt 13 imm) rs2 rs1 0b101#3 .branch
  | .bltu rs1 rs2 imm => encodeB (BitVec.ofInt 13 imm) rs2 rs1 0b110#3 .branch
  | .bgeu rs1 rs2 imm => encodeB (BitVec.ofInt 13 imm) rs2 rs1 0b111#3 .branch
  | .lb rd rs1 imm => encodeI (BitVec.ofInt 12 imm) rs1 0b000#3 rd .load
  | .lh rd rs1 imm => encodeI (BitVec.ofInt 12 imm) rs1 0b001#3 rd .load
  | .lw rd rs1 imm => encodeI (BitVec.ofInt 12 imm) rs1 0b010#3 rd .load
  | .lbu rd rs1 imm => encodeI (BitVec.ofInt 12 imm) rs1 0b100#3 rd .load
  | .lhu rd rs1 imm => encodeI (BitVec.ofInt 12 imm) rs1 0b101#3 rd .load
  | .sb rs2 rs1 imm => encodeS (BitVec.ofInt 12 imm) rs2 rs1 0b000#3 .store
  | .sh rs2 rs1 imm => encodeS (BitVec.ofInt 12 imm) rs2 rs1 0b001#3 .store
  | .sw rs2 rs1 imm => encodeS (BitVec.ofInt 12 imm) rs2 rs1 0b010#3 .store
  | .addi rd rs1 imm => encodeI (BitVec.ofInt 12 imm) rs1 0b000#3 rd .opImm
  | .slti rd rs1 imm => encodeI (BitVec.ofInt 12 imm) rs1 0b010#3 rd .opImm
  | .sltiu rd rs1 imm => encodeI (BitVec.ofInt 12 imm) rs1 0b011#3 rd .opImm
  | .xori rd rs1 imm => encodeI (BitVec.ofInt 12 imm) rs1 0b100#3 rd .opImm
  | .ori rd rs1 imm => encodeI (BitVec.ofInt 12 imm) rs1 0b110#3 rd .opImm
  | .andi rd rs1 imm => encodeI (BitVec.ofInt 12 imm) rs1 0b111#3 rd .opImm
  | .slli rd rs1 shamt => encodeR 0b0000000#7 shamt rs1 0b001#3 rd .opImm
  | .srli rd rs1 shamt => encodeR 0b0000000#7 shamt rs1 0b101#3 rd .opImm
  | .srai rd rs1 shamt => encodeR 0b0100000#7 shamt rs1 0b101#3 rd .opImm
  | .add rd rs1 rs2 => encodeR 0b0000000#7 rs2 rs1 0b000#3 rd .op
  | .sub rd rs1 rs2 => encodeR 0b0100000#7 rs2 rs1 0b000#3 rd .op
  | .sll rd rs1 rs2 => encodeR 0b0000000#7 rs2 rs1 0b001#3 rd .op
  | .slt rd rs1 rs2 => encodeR 0b0000000#7 rs2 rs1 0b010#3 rd .op
  | .sltu rd rs1 rs2 => encodeR 0b0000000#7 rs2 rs1 0b011#3 rd .op
  | .xor rd rs1 rs2 => encodeR 0b0000000#7 rs2 rs1 0b100#3 rd .op
  | .srl rd rs1 rs2 => encodeR 0b0000000#7 rs2 rs1 0b101#3 rd .op
  | .sra rd rs1 rs2 => encodeR 0b0100000#7 rs2 rs1 0b101#3 rd .op
  | .or rd rs1 rs2 => encodeR 0b0000000#7 rs2 rs1 0b110#3 rd .op
  | .and rd rs1 rs2 => encodeR 0b0000000#7 rs2 rs1 0b111#3 rd .op
  | .mul rd rs1 rs2 => encodeR 0b0000001#7 rs2 rs1 0b000#3 rd .op
  | .div rd rs1 rs2 => encodeR 0b0000001#7 rs2 rs1 0b100#3 rd .op
  | .divu rd rs1 rs2 => encodeR 0b0000001#7 rs2 rs1 0b101#3 rd .op
  | .rem rd rs1 rs2 => encodeR 0b0000001#7 rs2 rs1 0b110#3 rd .op
  | .remu rd rs1 rs2 => encodeR 0b0000001#7 rs2 rs1 0b111#3 rd .op
  | .ecall => encodeI 0x000#12 0 0b000#3 0 .system
  | .ebreak => encodeI 0x001#12 0 0b000#3 0 .system
  | .fence => encodeI 0x000#12 0 0b000#3 0 .miscMem
  | .fenceI => encodeI 0x000#12 0 0b001#3 0 .miscMem
  | .csrrw rd csr rs1 => encodeI csr rs1 0b001#3 rd .system
  | .csrrs rd csr rs1 => encodeI csr rs1 0b010#3 rd .system
  | .csrrc rd csr rs1 => encodeI csr rs1 0b011#3 rd .system
  | .csrrwi rd csr uimm => encodeI csr uimm 0b101#3 rd .system
  | .csrrsi rd csr uimm => encodeI csr uimm 0b110#3 rd .system
  | .csrrci rd csr uimm => encodeI csr uimm 0b111#3 rd .system

/-! ### The opcode table, as the spec's machine-readable copy has it -/

/-- The bits a row of spec/opcode_table.json fixes (R96, R150 to R261). -/
def Mnemonic.mask : Mnemonic → Word
  | .lui | .auipc | .jal => 0x0000007F#32
  | .jalr | .beq | .bne | .blt | .bge | .bltu | .bgeu | .lb | .lh | .lw | .lbu | .lhu | .sb | .sh | .sw
  | .addi | .slti | .sltiu | .xori | .ori | .andi | .fence | .fenceI
  | .csrrw | .csrrs | .csrrc | .csrrwi | .csrrsi | .csrrci => 0x0000707F#32
  | .slli | .srli | .srai | .add | .sub | .sll | .slt | .sltu | .xor | .srl | .sra | .or | .and
  | .mul | .div | .divu | .rem | .remu => 0xFE00707F#32
  | .ecall | .ebreak => 0xFFFFFFFF#32

/-- The value of the fixed bits of a row of spec/opcode_table.json (R150 to R261). -/
def Mnemonic.matchWord : Mnemonic → Word
  | .lui => 0x00000037#32
  | .auipc => 0x00000017#32
  | .jal => 0x0000006F#32
  | .jalr => 0x00000067#32
  | .beq => 0x00000063#32
  | .bne => 0x00001063#32
  | .blt => 0x00004063#32
  | .bge => 0x00005063#32
  | .bltu => 0x00006063#32
  | .bgeu => 0x00007063#32
  | .lb => 0x00000003#32
  | .lh => 0x00001003#32
  | .lw => 0x00002003#32
  | .lbu => 0x00004003#32
  | .lhu => 0x00005003#32
  | .sb => 0x00000023#32
  | .sh => 0x00001023#32
  | .sw => 0x00002023#32
  | .addi => 0x00000013#32
  | .slti => 0x00002013#32
  | .sltiu => 0x00003013#32
  | .xori => 0x00004013#32
  | .ori => 0x00006013#32
  | .andi => 0x00007013#32
  | .slli => 0x00001013#32
  | .srli => 0x00005013#32
  | .srai => 0x40005013#32
  | .add => 0x00000033#32
  | .sub => 0x40000033#32
  | .sll => 0x00001033#32
  | .slt => 0x00002033#32
  | .sltu => 0x00003033#32
  | .xor => 0x00004033#32
  | .srl => 0x00005033#32
  | .sra => 0x40005033#32
  | .or => 0x00006033#32
  | .and => 0x00007033#32
  | .mul => 0x02000033#32
  | .div => 0x02004033#32
  | .divu => 0x02005033#32
  | .rem => 0x02006033#32
  | .remu => 0x02007033#32
  | .ecall => 0x00000073#32
  | .ebreak => 0x00100073#32
  | .fence => 0x0000000F#32
  | .fenceI => 0x0000100F#32
  | .csrrw => 0x00001073#32
  | .csrrs => 0x00002073#32
  | .csrrc => 0x00003073#32
  | .csrrwi => 0x00005073#32
  | .csrrsi => 0x00006073#32
  | .csrrci => 0x00007073#32

/-- All 52 mnemonics in the order of R100. -/
def Mnemonic.all : List Mnemonic :=
  [.lui, .auipc, .jal, .jalr, .beq, .bne, .blt, .bge, .bltu, .bgeu, .lb, .lh, .lw, .lbu, .lhu, .sb, .sh, .sw,
    .addi, .slti, .sltiu, .xori, .ori, .andi, .slli, .srli, .srai,
    .add, .sub, .sll, .slt, .sltu, .xor, .srl, .sra, .or, .and, .mul, .div, .divu, .rem, .remu,
    .ecall, .ebreak, .fence, .fenceI, .csrrw, .csrrs, .csrrc, .csrrwi, .csrrsi, .csrrci]

end Sys2Proof
end

