-- ==== Sys2Proof/Config.lean ====
section
/-! DEFINITION. The implementation parameters (spec: 00_scope.md R5 to R11). A `Config` is fixed for a run
(10_state.md R38, 70_reset_and_hazards.md R321); the state carries it as plain data and no step changes it
(notes/assumptions/1.md). The model has no free value: nothing in this hardware is nondeterministic (40_step_cycle.md R143). -/

namespace Sys2Proof

/-- What `ecall` does (R8): jump to the trap vector, or end the run. -/
inductive EcallMode where
  | vector
  | halt
  deriving DecidableEq, Repr

/-- The parameters of R5 to R11. `ecallLink` is a register index by its type (R8: 0 to 31). -/
structure Config where
  /-- `MEM_SIZE` (R6): the number of bytes of Memory. -/
  memSize : Nat
  /-- `START_PC` (R7): the value of `pc` after reset. -/
  startPc : Word
  /-- `TRAP_VECTOR` (R8). -/
  trapVector : Word
  /-- `ECALL_LINK` (R8). -/
  ecallLink : Reg
  /-- `ECALL_MODE` (R8). -/
  ecallMode : EcallMode
  /-- `MAX_INSTRUCTIONS` (R9): a positive integer or none. -/
  maxInstructions : Option Nat
  /-- `INIT_MEM` (R10): the content of Memory before the image is loaded. -/
  initMem : Memory
  /-- `DISASM_LIMIT` (R11). -/
  disasmLimit : Nat
  deriving DecidableEq, Repr

/-- The default of every parameter (R6 to R9, R11). `INIT_MEM` has no default in the spec (R10, D32): all bytes
zero here. DESIGN CHOICE, unsafe: notes/assumptions/2.md. -/
def Config.default : Config where
  memSize := 0x100000
  startPc := 0x00000000#32
  trapVector := 0x00000020#32
  ecallLink := 1
  ecallMode := .vector
  maxInstructions := none
  initMem := []
  disasmLimit := 0x100000

end Sys2Proof
end

