-- ==== Sys2Proof/Machine/State.lean ====
section
/-! DEFINITION. The machine's state as plain data (spec: 10_state.md R20 to R40; 60_exceptions.md R290, R296). -/

namespace Sys2Proof.Machine

/-- The four error kinds, by name only: no codes exist (R290, R304). -/
inductive FaultKind where
  | unknownOpcode
  | unknownFunct
  | memoryFault
  | unsupportedInstruction
  deriving DecidableEq, Repr

/-- A fault with what its own kind records (R290, R296). -/
inductive FaultInfo where
  /-- `w[6:0]` is no known opcode; carries it (R291). -/
  | unknownOpcode (opcode : BitVec 7)
  /-- The opcode is known, the funct combination is not (R292). -/
  | unknownFunct
  /-- `addr + n > MEM_SIZE` at a fetch, load or store (R293). -/
  | memoryFault (addr : Word) (n : Nat)
  /-- A CSR instruction was executed (R294). -/
  | unsupportedInstruction (mnemonic : Mnemonic)
  deriving DecidableEq, Repr

/-- The diagnostic of a fault (R296). `word` is absent exactly when no word could be fetched at `pc`. -/
structure Diag where
  pc : Word
  word : Option Word
  info : FaultInfo
  deriving DecidableEq, Repr

/-- Why the run is over: the complete list (R30). -/
inductive HaltReason where
  | stopped
  | breakpoint
  | environmentCall
  | budgetExceeded
  | fault (diag : Diag)
  deriving DecidableEq, Repr

/-- The run state (R30). -/
inductive RunState where
  | running
  | halted (reason : HaltReason)
  deriving DecidableEq, Repr

/-- One trace record: the count after the increment, the address fetched from, the mnemonic, in this order (R139). -/
structure TraceRecord where
  count : Nat
  oldPc : Word
  mnemonic : Mnemonic
  deriving DecidableEq, Repr

/-- The state. The first five fields are the spec's whole `CpuState` and run state (R20). The last three are the
model's own: the parameters (R38), the stop input (R31) and the trace output (R32), kept as plain data so that one
function of the state can say everything a step does. -/
structure State where
  /-- The 32 general registers (R21). -/
  x : Vector Word 32
  /-- The program counter (R25). -/
  pc : Word
  /-- Memory (R36, R50). -/
  mem : Memory
  /-- The instruction counter, unbounded (R29). -/
  icount : Nat
  /-- The run state (R30). -/
  run : RunState
  /-- The parameters, fixed for a run (R5 to R11, R38). DESIGN CHOICE, safe: notes/assumptions/1.md. -/
  cfg : Config
  /-- The `stop` samples to come, first first; none left reads as not set (R31). DESIGN CHOICE: notes/assumptions/3.md. -/
  stops : List Bool
  /-- The trace records emitted since reset, newest first (R32). DESIGN CHOICE, safe: notes/assumptions/4.md. -/
  trace : List TraceRecord
  deriving DecidableEq, Repr

/-- The reasons an operation answers `Outcome.fault`. No STEP ever does: the spec gives every fault of a step an
entry and the state it leaves, so a faulting step is a NEXT state whose `run` is `halted (fault …)` (R295;
notes/assumptions/5.md). -/
inductive Fault where
  /-- Raised by `loadImage` alone, to the host, when the image is longer than memory: `MemoryFault(0, len)`, memory and
  run state unchanged (20_memory.md R58, D23). Safe: nothing is loaded. -/
  | imageMemoryFault (addr n : Nat)
  deriving DecidableEq, Repr

/-- The reasons an operation answers `Outcome.refused`. -/
inductive Refusal where
  /-- Raised by an arm of `exec` whose instruction has no meaning yet. Safe. No arm of this model does. -/
  | notModelled (mnemonic : String)
  /-- Raised by `step`, and to the host by `loadImage` and `disassemble`, for a configuration outside the limits of R6,
  R9, R10 and R11, which the spec refuses (93_implementation_defined.md U14, U16, U21). Safe: such a machine does not
  exist. -/
  | illegalConfiguration
  /-- Raised by `loadImage` alone, to the host, once a step has been taken since reset: an image is loaded before the
  first step, and a host write during a run is refused (R39, 20_memory.md R58, 93_implementation_defined.md U23). Safe:
  nothing is loaded. -/
  | imageLoadAfterFirstStep
  deriving DecidableEq, Repr

/-- The state right after `reset`, for any parameters (R40; 70_reset_and_hazards.md R320). -/
def State.resetWith (c : Config) : State where
  x := (Vector.replicate 32 (0 : Word)).set 2 (BitVec.ofNat 32 c.memSize)
  pc := c.startPc
  mem := c.initMem
  icount := 0
  run := .running
  cfg := c
  stops := []
  trace := []

/-- The machine right after reset with the default parameters (R6 to R11, R40). -/
def State.reset : State := State.resetWith Config.default

end Sys2Proof.Machine
end

