-- ==== Sys2Proof/Machine/Ops.lean ====
section
/-! DEFINITION. The named operations over memory, registers and the run: the primitives of 00_scope.md R17, fault entry
(60_exceptions.md R295), commit (40_step_cycle.md R137, R139 to R141) and the trap entry of `ecall` (60_exceptions.md R300). -/

namespace Sys2Proof

/-! ### Memory as a canonical list -/

/-- What an address that is not listed reads as. Every byte array can be written in the canonical form, so this value
alone restricts nothing; that `State.reset` lists nothing is notes/assumptions/2.md. -/
def unlistedByte : Byte := 0x00#8

/-- The canonical form: addresses strictly rising, no entry equal to what an unlisted address reads as. -/
def Memory.wf : Memory → Bool
  | [] => true
  | (a, b) :: rest => b != unlistedByte && rest.all (fun c => decide (a < c.1)) && Memory.wf rest

/-- Every listed address is below `n`. -/
def Memory.below (m : Memory) (n : Nat) : Bool := m.all (fun c => decide (c.1 < n))

/-- The byte at an address. -/
def Memory.byteAt : Memory → Nat → Byte
  | [], _ => unlistedByte
  | (k, c) :: rest, a => if k = a then c else Memory.byteAt rest a

/-- List the byte `b` at `a`, in order. -/
def Memory.insertByte : Memory → Nat → Byte → Memory
  | [], a, b => [(a, b)]
  | (k, c) :: rest, a, b =>
    if a < k then (a, b) :: (k, c) :: rest
    else if a = k then (a, b) :: rest
    else (k, c) :: Memory.insertByte rest a b

/-- Write one byte, keeping the canonical form: writing what an unlisted address reads as removes the entry. -/
def Memory.setByte (m : Memory) (a : Nat) (b : Byte) : Memory :=
  if b = unlistedByte then m.filter (fun c => decide (c.1 ≠ a)) else m.insertByte a b

/-- The unsigned little-endian value of the `n` bytes at `a`: the sum of R53. -/
def Memory.readLE (m : Memory) (a : Nat) : Nat → Nat
  | 0 => 0
  | n + 1 => (m.byteAt a).toNat + 256 * Memory.readLE m (a + 1) n

/-- Store the low `8 * n` bits of `v` little-endian at `a`: the loop of R54. -/
def Memory.writeLE (m : Memory) (a : Nat) (n : Nat) (v : Nat) : Memory :=
  match n with
  | 0 => m
  | n + 1 => Memory.writeLE (m.setByte a (BitVec.ofNat 8 v)) (a + 1) n (v / 256)

/-- Store a byte sequence at ascending addresses from `a` (R58). -/
def Memory.writeBytes (m : Memory) (a : Nat) : List Byte → Memory
  | [] => m
  | b :: rest => Memory.writeBytes (m.setByte a b) (a + 1) rest

/-- The limits the spec puts on the parameters: `4 <= MEM_SIZE <= 2^32` (R6), a positive budget (R9), `INIT_MEM` an
array of `MEM_SIZE` bytes (R10), `DISASM_LIMIT <= MEM_SIZE` (R11). -/
def Config.legal (c : Config) : Bool :=
  decide (4 ≤ c.memSize) && decide (c.memSize ≤ 2 ^ 32) && decide (c.maxInstructions ≠ some 0) &&
    c.initMem.wf && c.initMem.below c.memSize && decide (c.disasmLimit ≤ c.memSize)

namespace Machine

/-! ### Registers (R22, R23) -/

/-- `x[i]`: register 0 reads as 0 (R22, R23). -/
def State.getReg (s : State) (r : Reg) : Word := if r = 0 then 0 else s.x.get r

/-- `x[i] <- v`: the write is not blocked for register 0; commit zeroes it (R23, R137). -/
def State.setReg (s : State) (r : Reg) (v : Word) : State := { s with x := s.x.set r.val v r.isLt }

/-! ### Memory access (R53 to R55) -/

/-- The bound of R55, on the mathematical sum: an access never wraps (D6). -/
def State.inBounds (s : State) (addr : Word) (n : Nat) : Bool := decide (addr.toNat + n ≤ s.cfg.memSize)

/-- `MemRead(addr, n)`; none where R53 raises `MemoryFault`. -/
def State.memRead (s : State) (addr : Word) (n : Nat) : Option Nat :=
  if s.inBounds addr n then some (s.mem.readLE addr.toNat n) else none

/-- `MemWrite(addr, n, v)`; none, with nothing written, where R54 raises `MemoryFault`. -/
def State.memWrite (s : State) (addr : Word) (n : Nat) (v : Word) : Option State :=
  if s.inBounds addr n then some { s with mem := s.mem.writeLE addr.toNat n v.toNat } else none

/-- The word at `pc`, if it can be fetched (R133). -/
def State.fetchWord (s : State) : Option Word := (s.memRead s.pc 4).map (BitVec.ofNat 32)

/-! ### Fault entry (R295, R296) -/

/-- `raise`: the run halts with the diagnostic, and nothing else changes. The word of the diagnostic is the one at
`pc`, which is absent exactly for a fetch fault. -/
def State.raise (s : State) (info : FaultInfo) : State :=
  { s with run := .halted (.fault { pc := s.pc, word := s.fetchWord, info := info }) }

/-- The name of a fault (R290, R304). -/
def FaultInfo.kind : FaultInfo → FaultKind
  | .unknownOpcode _ => .unknownOpcode
  | .unknownFunct => .unknownFunct
  | .memoryFault _ _ => .memoryFault
  | .unsupportedInstruction _ => .unsupportedInstruction

/-! ### Commit (R137, R139 to R141) -/

/-- Whether `MAX_INSTRUCTIONS` is reached by this count (R141). -/
def budgetReached (c : Config) (count : Nat) : Bool :=
  match c.maxInstructions with
  | none => false
  | some n => decide (n ≤ count)

/-- The run state a commit leaves: the instruction's own halt first, then the budget (R140, R141). -/
def State.runAfter (s : State) (halt : Option HaltReason) : RunState :=
  match halt with
  | some r => .halted r
  | none => if budgetReached s.cfg (s.icount + 1) then .halted .budgetExceeded else s.run

/-- Commit the instruction named `m`: `pc <- nextPc`, `x[0] <- 0`, `icount + 1`, one trace record with the address it was
fetched from, then the halt or the budget. -/
def State.commit (s : State) (m : Mnemonic) (nextPc : Word) (halt : Option HaltReason) : State :=
  { s with
    x := s.x.set 0 0
    pc := nextPc
    icount := s.icount + 1
    trace := { count := s.icount + 1, oldPc := s.pc, mnemonic := m } :: s.trace
    run := s.runAfter halt }

/-! ### The trap of `ecall`, and the return from it (R300, R302) -/

/-- Trap entry in `ECALL_MODE = vector`: the address after the instruction goes to `x[ECALL_LINK]`, control to
`TRAP_VECTOR`, and the instruction commits; nothing else is saved or changed (R251, R300). The hardware has no return
instruction: a handler returns with `jalr x0, ECALL_LINK, 0` (R302), which is `execJalr`. -/
def State.trapEntry (s : State) (m : Mnemonic) : State :=
  (s.setReg s.cfg.ecallLink (s.pc + 4#32)).commit m s.cfg.trapVector none

end Machine
end Sys2Proof
end

