-- ==== Sys2Proof/Machine/Operands.lean ====
section
/-! DEFINITION. Operand values: immediates as words, effective addresses, targets, shift amounts, load extension
(spec: 20_memory.md R57, R67; 30_encoding.md R92; 40_step_cycle.md R136), and the three ways an instruction ends. -/

namespace Sys2Proof.Machine

/-- `u32(old_pc + 4)`: the default next pc and the link value (R136). -/
def State.seqPc (s : State) : Word := s.pc + 4#32

/-- `u32(old_pc + imm)`: the target of a taken branch and of `jal` (R136, R170). -/
def State.relTarget (s : State) (imm : Int) : Word := s.pc + u32 imm

/-- `u32(x[rs1] + imm)`: the one addressing mode of loads and stores (R67), and the target of `jalr` (R161). -/
def State.effAddr (s : State) (rs1 : Reg) (imm : Int) : Word := s.getReg rs1 + u32 imm

/-- `imm_U = imm20 * 4096` as a 32-bit pattern (R92). -/
def upperImm (imm20 : BitVec 20) : Word := imm20 ++ 0x000#12

/-- A register shift amount: the low five bits of the register (R220, D9). -/
def shiftAmount (v : Word) : Nat := (v.extractLsb' 0 5).toNat

/-- The widening of a loaded value of `n` bytes by sign extension (R57, R181, R182). -/
def signExtended (n v : Nat) : Word := u32 (sext (8 * n) v)

/-- The widening of a loaded value of `n` bytes by zero extension (R57, R184, R185); the identity on a word (R183). -/
def zeroExtended (n v : Nat) : Word := u32 (zext (8 * n) v)

/-- Write `rd` and commit with the default next pc: the ALU instructions (R200, R220, R240). -/
def State.retire (s : State) (m : Mnemonic) (rd : Reg) (v : Word) : State :=
  (s.setReg rd v).commit m s.seqPc none

/-- Write the link register `rd` with `u32(old_pc + 4)` and go to `t`: the jumps (R160, R161). -/
def State.jump (s : State) (m : Mnemonic) (rd : Reg) (t : Word) : State :=
  (s.setReg rd s.seqPc).commit m t none

/-- Commit with the target of the branch if taken, else the default next pc (R170). -/
def State.branch (s : State) (m : Mnemonic) (taken : Bool) (imm : Int) : State :=
  s.commit m (if taken then s.relTarget imm else s.seqPc) none

/-- A load of `n` bytes (R180): `MemRead` first, so a fault writes nothing (R138). -/
def State.load (s : State) (m : Mnemonic) (n : Nat) (extend : Nat → Word) (rd rs1 : Reg) (imm : Int) : State :=
  match s.memRead (s.effAddr rs1 imm) n with
  | none => s.raise (.memoryFault (s.effAddr rs1 imm) n)
  | some v => s.retire m rd (extend v)

/-- A store of `n` bytes (R190). -/
def State.store (s : State) (m : Mnemonic) (n : Nat) (rs2 rs1 : Reg) (imm : Int) : State :=
  match s.memWrite (s.effAddr rs1 imm) n (s.getReg rs2) with
  | none => s.raise (.memoryFault (s.effAddr rs1 imm) n)
  | some t => t.commit m s.seqPc none

end Sys2Proof.Machine
end

