-- ==== Sys2Proof/Machine/Flags.lean ====
section
/-! DEFINITION. The hardware has no flags, no status register and no condition codes (10_state.md R33): branches and
compare instructions test registers directly. The tests they make are here (43_branches.md R171 to R176; 46 R202, R203;
47 R224, R225). -/

namespace Sys2Proof.Machine

/-- `a = b`, all 32 bits (R171). -/
def condEq (a b : Word) : Bool := decide (a = b)

/-- `a != b` (R172). -/
def condNe (a b : Word) : Bool := decide (a ≠ b)

/-- `s32(a) < s32(b)` (R173, R202, R224). -/
def condLt (a b : Word) : Bool := BitVec.slt a b

/-- `s32(a) >= s32(b)` (R174). -/
def condGe (a b : Word) : Bool := BitVec.sle b a

/-- `a < b` on the raw values (R175, R203, R225). -/
def condLtu (a b : Word) : Bool := BitVec.ult a b

/-- `a >= b` on the raw values (R176). -/
def condGeu (a b : Word) : Bool := BitVec.ule b a

/-- The result of a compare instruction: exactly 1 or 0 (R202, R224). -/
def boolWord (b : Bool) : Word := if b then 1#32 else 0#32

end Sys2Proof.Machine
end

