-- ==== Sys2Proof/Machine/AluImm.lean ====
section
/-! DEFINITION. The nine register-immediate ALU instructions (spec: 46_alu_immediate.md R200 to R209). -/

namespace Sys2Proof.Machine

/-- R201: `x[rs1] + imm`, wrapping. -/
def execAddi (rd rs1 : Reg) (imm : Int) (s : State) : Host.Outcome State Fault Refusal :=
  .next (s.retire .addi rd (s.getReg rs1 + u32 imm))

/-- R202: 1 if `s32(x[rs1]) < imm`. -/
def execSlti (rd rs1 : Reg) (imm : Int) (s : State) : Host.Outcome State Fault Refusal :=
  .next (s.retire .slti rd (boolWord (condLt (s.getReg rs1) (u32 imm))))

/-- R203: 1 if `x[rs1] < u32(imm)`, raw; `imm` is sign-extended first (D11). -/
def execSltiu (rd rs1 : Reg) (imm : Int) (s : State) : Host.Outcome State Fault Refusal :=
  .next (s.retire .sltiu rd (boolWord (condLtu (s.getReg rs1) (u32 imm))))

/-- R204: exclusive or with `u32(imm)`. -/
def execXori (rd rs1 : Reg) (imm : Int) (s : State) : Host.Outcome State Fault Refusal :=
  .next (s.retire .xori rd (s.getReg rs1 ^^^ u32 imm))

/-- R205: or with `u32(imm)`. -/
def execOri (rd rs1 : Reg) (imm : Int) (s : State) : Host.Outcome State Fault Refusal :=
  .next (s.retire .ori rd (s.getReg rs1 ||| u32 imm))

/-- R206: and with `u32(imm)`. -/
def execAndi (rd rs1 : Reg) (imm : Int) (s : State) : Host.Outcome State Fault Refusal :=
  .next (s.retire .andi rd (s.getReg rs1 &&& u32 imm))

/-- R207: shift left by `shamt`. -/
def execSlli (rd rs1 : Reg) (shamt : Fin 32) (s : State) : Host.Outcome State Fault Refusal :=
  .next (s.retire .slli rd (s.getReg rs1 <<< shamt.val))

/-- R208: logical shift right by `shamt`. -/
def execSrli (rd rs1 : Reg) (shamt : Fin 32) (s : State) : Host.Outcome State Fault Refusal :=
  .next (s.retire .srli rd (s.getReg rs1 >>> shamt.val))

/-- R209: arithmetic shift right by `shamt`. -/
def execSrai (rd rs1 : Reg) (shamt : Fin 32) (s : State) : Host.Outcome State Fault Refusal :=
  .next (s.retire .srai rd ((s.getReg rs1).sshiftRight shamt.val))

end Sys2Proof.Machine
end

