-- ==== Sys2Proof/Machine/AluReg.lean ====
section
/-! DEFINITION. The ten register-register ALU instructions (spec: 47_alu_register.md R220 to R230). -/

namespace Sys2Proof.Machine

/-- R221: `x[rs1] + x[rs2]`, wrapping. -/
def execAdd (rd rs1 rs2 : Reg) (s : State) : Host.Outcome State Fault Refusal :=
  .next (s.retire .add rd (s.getReg rs1 + s.getReg rs2))

/-- R222: `x[rs1] - x[rs2]`, wrapping. -/
def execSub (rd rs1 rs2 : Reg) (s : State) : Host.Outcome State Fault Refusal :=
  .next (s.retire .sub rd (s.getReg rs1 - s.getReg rs2))

/-- R223: shift left by `x[rs2][4:0]`. -/
def execSll (rd rs1 rs2 : Reg) (s : State) : Host.Outcome State Fault Refusal :=
  .next (s.retire .sll rd (s.getReg rs1 <<< shiftAmount (s.getReg rs2)))

/-- R224: 1 if `s32(x[rs1]) < s32(x[rs2])`. -/
def execSlt (rd rs1 rs2 : Reg) (s : State) : Host.Outcome State Fault Refusal :=
  .next (s.retire .slt rd (boolWord (condLt (s.getReg rs1) (s.getReg rs2))))

/-- R225: 1 if `x[rs1] < x[rs2]`, raw. -/
def execSltu (rd rs1 rs2 : Reg) (s : State) : Host.Outcome State Fault Refusal :=
  .next (s.retire .sltu rd (boolWord (condLtu (s.getReg rs1) (s.getReg rs2))))

/-- R226: exclusive or. -/
def execXor (rd rs1 rs2 : Reg) (s : State) : Host.Outcome State Fault Refusal :=
  .next (s.retire .xor rd (s.getReg rs1 ^^^ s.getReg rs2))

/-- R227: logical shift right by `x[rs2][4:0]`. -/
def execSrl (rd rs1 rs2 : Reg) (s : State) : Host.Outcome State Fault Refusal :=
  .next (s.retire .srl rd (s.getReg rs1 >>> shiftAmount (s.getReg rs2)))

/-- R228: arithmetic shift right by `x[rs2][4:0]`. -/
def execSra (rd rs1 rs2 : Reg) (s : State) : Host.Outcome State Fault Refusal :=
  .next (s.retire .sra rd ((s.getReg rs1).sshiftRight (shiftAmount (s.getReg rs2))))

/-- R229: or. -/
def execOr (rd rs1 rs2 : Reg) (s : State) : Host.Outcome State Fault Refusal :=
  .next (s.retire .or rd (s.getReg rs1 ||| s.getReg rs2))

/-- R230: and. -/
def execAnd (rd rs1 rs2 : Reg) (s : State) : Host.Outcome State Fault Refusal :=
  .next (s.retire .and rd (s.getReg rs1 &&& s.getReg rs2))

end Sys2Proof.Machine
end

