-- ==== Sys2Proof/Machine/Branch.lean ====
section
/-! DEFINITION. The six conditional branches (spec: 43_branches.md R170 to R176). -/

namespace Sys2Proof.Machine

/-- R171: taken if `x[rs1] = x[rs2]`. -/
def execBeq (rs1 rs2 : Reg) (imm : Int) (s : State) : Host.Outcome State Fault Refusal :=
  .next (s.branch .beq (condEq (s.getReg rs1) (s.getReg rs2)) imm)

/-- R172: taken if `x[rs1] != x[rs2]`. -/
def execBne (rs1 rs2 : Reg) (imm : Int) (s : State) : Host.Outcome State Fault Refusal :=
  .next (s.branch .bne (condNe (s.getReg rs1) (s.getReg rs2)) imm)

/-- R173: taken if `s32(x[rs1]) < s32(x[rs2])`. -/
def execBlt (rs1 rs2 : Reg) (imm : Int) (s : State) : Host.Outcome State Fault Refusal :=
  .next (s.branch .blt (condLt (s.getReg rs1) (s.getReg rs2)) imm)

/-- R174: taken if `s32(x[rs1]) >= s32(x[rs2])`. -/
def execBge (rs1 rs2 : Reg) (imm : Int) (s : State) : Host.Outcome State Fault Refusal :=
  .next (s.branch .bge (condGe (s.getReg rs1) (s.getReg rs2)) imm)

/-- R175: taken if `x[rs1] < x[rs2]`, raw. -/
def execBltu (rs1 rs2 : Reg) (imm : Int) (s : State) : Host.Outcome State Fault Refusal :=
  .next (s.branch .bltu (condLtu (s.getReg rs1) (s.getReg rs2)) imm)

/-- R176: taken if `x[rs1] >= x[rs2]`, raw. -/
def execBgeu (rs1 rs2 : Reg) (imm : Int) (s : State) : Host.Outcome State Fault Refusal :=
  .next (s.branch .bgeu (condGeu (s.getReg rs1) (s.getReg rs2)) imm)

end Sys2Proof.Machine
end

