-- ==== Sys2Proof/Machine/Jump.lean ====
section
/-! DEFINITION. `jal`, `jalr` (spec: 42_jumps.md). -/

namespace Sys2Proof.Machine

/-- R160: link, then `pc <- u32(old_pc + imm)`. -/
def execJal (rd : Reg) (imm : Int) (s : State) : Host.Outcome State Fault Refusal :=
  .next (s.jump .jal rd (s.relTarget imm))

/-- R161: `pc <- u32(x[rs1] + imm)` with the old `x[rs1]`, then link; bit 0 of the target is not cleared (D7). -/
def execJalr (rd rs1 : Reg) (imm : Int) (s : State) : Host.Outcome State Fault Refusal :=
  .next (s.jump .jalr rd (s.effAddr rs1 imm))

end Sys2Proof.Machine
end

