-- ==== Sys2Proof/Machine/Load.lean ====
section
/-! DEFINITION. The five loads (spec: 44_loads.md R180 to R185). -/

namespace Sys2Proof.Machine

/-- R181: one byte, sign-extended. -/
def execLb (rd rs1 : Reg) (imm : Int) (s : State) : Host.Outcome State Fault Refusal :=
  .next (s.load .lb 1 (signExtended 1) rd rs1 imm)

/-- R182: two bytes, sign-extended. -/
def execLh (rd rs1 : Reg) (imm : Int) (s : State) : Host.Outcome State Fault Refusal :=
  .next (s.load .lh 2 (signExtended 2) rd rs1 imm)

/-- R183: four bytes. -/
def execLw (rd rs1 : Reg) (imm : Int) (s : State) : Host.Outcome State Fault Refusal :=
  .next (s.load .lw 4 (zeroExtended 4) rd rs1 imm)

/-- R184: one byte, zero-extended. -/
def execLbu (rd rs1 : Reg) (imm : Int) (s : State) : Host.Outcome State Fault Refusal :=
  .next (s.load .lbu 1 (zeroExtended 1) rd rs1 imm)

/-- R185: two bytes, zero-extended. -/
def execLhu (rd rs1 : Reg) (imm : Int) (s : State) : Host.Outcome State Fault Refusal :=
  .next (s.load .lhu 2 (zeroExtended 2) rd rs1 imm)

end Sys2Proof.Machine
end

