-- ==== Sys2Proof/Machine/MulDiv.lean ====
section
/-! DEFINITION. Multiply and divide (spec: 48_muldiv.md R240 to R245). -/

namespace Sys2Proof.Machine

/-- Signed division (R242): rounded toward zero; all ones by zero; the overflow case wraps (R240, D3, D4). -/
def divSigned (a b : Word) : Word :=
  if b = 0 then 0xFFFFFFFF#32
  else if s32 a = -2 ^ 31 ∧ s32 b = -1 then 0x80000000#32
  else u32 (Int.tdiv (s32 a) (s32 b))

/-- Unsigned division (R243); all ones by zero. -/
def divUnsigned (a b : Word) : Word :=
  if b = 0 then 0xFFFFFFFF#32 else BitVec.ofNat 32 (a.toNat / b.toNat)

/-- Signed remainder (R244): the sign of the dividend, or zero; the dividend by zero; 0 in the overflow case. -/
def remSigned (a b : Word) : Word :=
  if b = 0 then a
  else if s32 a = -2 ^ 31 ∧ s32 b = -1 then 0#32
  else u32 (s32 a - s32 b * Int.tdiv (s32 a) (s32 b))

/-- Unsigned remainder (R245); the dividend by zero. -/
def remUnsigned (a b : Word) : Word :=
  if b = 0 then a else BitVec.ofNat 32 (a.toNat % b.toNat)

/-- R241: the low 32 bits of the product. -/
def execMul (rd rs1 rs2 : Reg) (s : State) : Host.Outcome State Fault Refusal :=
  .next (s.retire .mul rd (s.getReg rs1 * s.getReg rs2))

/-- R242. -/
def execDiv (rd rs1 rs2 : Reg) (s : State) : Host.Outcome State Fault Refusal :=
  .next (s.retire .div rd (divSigned (s.getReg rs1) (s.getReg rs2)))

/-- R243. -/
def execDivu (rd rs1 rs2 : Reg) (s : State) : Host.Outcome State Fault Refusal :=
  .next (s.retire .divu rd (divUnsigned (s.getReg rs1) (s.getReg rs2)))

/-- R244. -/
def execRem (rd rs1 rs2 : Reg) (s : State) : Host.Outcome State Fault Refusal :=
  .next (s.retire .rem rd (remSigned (s.getReg rs1) (s.getReg rs2)))

/-- R245. -/
def execRemu (rd rs1 rs2 : Reg) (s : State) : Host.Outcome State Fault Refusal :=
  .next (s.retire .remu rd (remUnsigned (s.getReg rs1) (s.getReg rs2)))

end Sys2Proof.Machine
end

