-- ==== Sys2Proof/Machine/Store.lean ====
section
/-! DEFINITION. The three stores (spec: 45_stores.md R190 to R193). -/

namespace Sys2Proof.Machine

/-- R191: the low byte of `x[rs2]`. -/
def execSb (rs2 rs1 : Reg) (imm : Int) (s : State) : Host.Outcome State Fault Refusal :=
  .next (s.store .sb 1 rs2 rs1 imm)

/-- R192: the low two bytes of `x[rs2]`. -/
def execSh (rs2 rs1 : Reg) (imm : Int) (s : State) : Host.Outcome State Fault Refusal :=
  .next (s.store .sh 2 rs2 rs1 imm)

/-- R193: the four bytes of `x[rs2]`. -/
def execSw (rs2 rs1 : Reg) (imm : Int) (s : State) : Host.Outcome State Fault Refusal :=
  .next (s.store .sw 4 rs2 rs1 imm)

end Sys2Proof.Machine
end

