-- ==== Sys2Proof/Machine/System.lean ====
section
/-! DEFINITION. `ecall`, `ebreak`, the fences and the CSR instructions (spec: 49_system_fence_csr.md R250 to R261). -/

namespace Sys2Proof.Machine

/-- R251: in `vector` mode the trap entry of R300; in `halt` mode commit and halt with `EnvironmentCall`. -/
def execEcall (s : State) : Host.Outcome State Fault Refusal :=
  .next (match s.cfg.ecallMode with
    | .vector => s.trapEntry .ecall
    | .halt => s.commit .ecall s.seqPc (some .environmentCall))

/-- R252: commit, then halt with `Breakpoint`. -/
def execEbreak (s : State) : Host.Outcome State Fault Refusal :=
  .next (s.commit .ebreak s.seqPc (some .breakpoint))

/-- R253: a no-op. -/
def execFence (s : State) : Host.Outcome State Fault Refusal :=
  .next (s.commit .fence s.seqPc none)

/-- R254: a no-op. -/
def execFenceI (s : State) : Host.Outcome State Fault Refusal :=
  .next (s.commit .fenceI s.seqPc none)

/-- R256: `raise UnsupportedInstruction(csrrw)`, for every operand value (R255): the fault entry of R295. -/
def execCsrrw (_rd : Reg) (_csr : BitVec 12) (_rs1 : Reg) (s : State) : Host.Outcome State Fault Refusal :=
  .next (s.raise (.unsupportedInstruction .csrrw))

/-- R257: `raise UnsupportedInstruction(csrrs)`, for every operand value (R255): the fault entry of R295. -/
def execCsrrs (_rd : Reg) (_csr : BitVec 12) (_rs1 : Reg) (s : State) : Host.Outcome State Fault Refusal :=
  .next (s.raise (.unsupportedInstruction .csrrs))

/-- R258: `raise UnsupportedInstruction(csrrc)`, for every operand value (R255): the fault entry of R295. -/
def execCsrrc (_rd : Reg) (_csr : BitVec 12) (_rs1 : Reg) (s : State) : Host.Outcome State Fault Refusal :=
  .next (s.raise (.unsupportedInstruction .csrrc))

/-- R259: `raise UnsupportedInstruction(csrrwi)`, for every operand value (R255): the fault entry of R295. -/
def execCsrrwi (_rd : Reg) (_csr : BitVec 12) (_uimm : Fin 32) (s : State) : Host.Outcome State Fault Refusal :=
  .next (s.raise (.unsupportedInstruction .csrrwi))

/-- R260: `raise UnsupportedInstruction(csrrsi)`, for every operand value (R255): the fault entry of R295. -/
def execCsrrsi (_rd : Reg) (_csr : BitVec 12) (_uimm : Fin 32) (s : State) : Host.Outcome State Fault Refusal :=
  .next (s.raise (.unsupportedInstruction .csrrsi))

/-- R261: `raise UnsupportedInstruction(csrrci)`, for every operand value (R255): the fault entry of R295. -/
def execCsrrci (_rd : Reg) (_csr : BitVec 12) (_uimm : Fin 32) (s : State) : Host.Outcome State Fault Refusal :=
  .next (s.raise (.unsupportedInstruction .csrrci))

end Sys2Proof.Machine
end

