-- ==== Sys2Proof/Machine/Upper.lean ====
section
/-! DEFINITION. `lui`, `auipc` (spec: 41_upper_immediate.md). -/

namespace Sys2Proof.Machine

/-- R150: `x[rd] <- u32(imm20 * 4096)`. -/
def execLui (rd : Reg) (imm20 : BitVec 20) (s : State) : Host.Outcome State Fault Refusal :=
  .next (s.retire .lui rd (upperImm imm20))

/-- R151: `x[rd] <- u32(old_pc + imm20 * 4096)`. -/
def execAuipc (rd : Reg) (imm20 : BitVec 20) (s : State) : Host.Outcome State Fault Refusal :=
  .next (s.retire .auipc rd (s.pc + upperImm imm20))

end Sys2Proof.Machine
end

