-- ==== Sys2Proof/Machine/Cycle.lean ====
section
/-! DEFINITION. The parts of one step (spec: 40_step_cycle.md R130 to R134): the stop check, fetch, decode, execute, and
the placing of a word where the next fetch reads it. -/

namespace Sys2Proof.Machine

/-- The `stop` sample of this step (R31, R131). -/
def State.stopSample (s : State) : Bool := s.stops.headD false

/-- The state once this step's `stop` sample has been taken. -/
def State.afterSample (s : State) : State := { s with stops := s.stops.tail }

/-- Fetch, decode, and execute or raise (R130, R133, R134). -/
def State.fetchDecodeExecute (s : State) : Host.Outcome State Fault Refusal :=
  match s.fetchWord with
  | none => .next (s.raise (.memoryFault s.pc 4))
  | some w =>
    match decode w with
    | .unknownOpcode op => .next (s.raise (.unknownOpcode op))
    | .unknown => .next (s.raise .unknownFunct)
    | .instr i => exec i s

/-- A step of a running machine: the stop check first (R131), then the instruction. -/
def State.runningStep (s : State) : Host.Outcome State Fault Refusal :=
  if s.stopSample then .next { s.afterSample with run := .halted .stopped }
  else s.afterSample.fetchDecodeExecute

/-- The word `w` stored at `pc`, little-endian, with the machine running and this step's stop sample not set. -/
def State.withWordAtPc (s : State) (w : Word) : State :=
  { s with mem := s.mem.writeLE s.pc.toNat 4 w.toNat, run := .running, stops := false :: s.stops.tail }

end Sys2Proof.Machine
end

