-- ==== Sys2Proof/Machine/Step.lean ====
section
/-! DEFINITION. One step of the machine (spec: 40_step_cycle.md R130; 10_state.md R30). -/

namespace Sys2Proof.Machine

/-- One `step()`. A halted machine does not change (R30). A configuration the spec refuses is refused
(93_implementation_defined.md U14, U16, U21; notes/assumptions/6.md). -/
def step (s : State) : Host.Outcome State Fault Refusal :=
  if s.cfg.legal then
    match s.run with
    | .halted _ => .next s
    | .running => s.runningStep
  else .refused .illegalConfiguration

/-- The state `s` with the instruction whose bits are the low `nbits` bits of `w` stored where `step` fetches its next
instruction: at `pc`, the machine running, this step's stop sample not set. -/
def State.withFetchWord (s : State) (nbits w : Nat) : State :=
  s.withWordAtPc (BitVec.ofNat 32 (w % 2 ^ nbits))

end Sys2Proof.Machine
end

