-- ==== Sys2Proof/Machine/Disasm.lean ====
section
/-! DEFINITION. The Disassembler (spec: 50_disassembler.md R270 to R276): the second consumer of the one Decoder. It
reads memory and changes nothing. -/

namespace Sys2Proof.Machine

/-- The lower-case name of a mnemonic (R100, R272). -/
def mnemonicText : Mnemonic → String
  | .lui => "lui"
  | .auipc => "auipc"
  | .jal => "jal"
  | .jalr => "jalr"
  | .beq => "beq"
  | .bne => "bne"
  | .blt => "blt"
  | .bge => "bge"
  | .bltu => "bltu"
  | .bgeu => "bgeu"
  | .lb => "lb"
  | .lh => "lh"
  | .lw => "lw"
  | .lbu => "lbu"
  | .lhu => "lhu"
  | .sb => "sb"
  | .sh => "sh"
  | .sw => "sw"
  | .addi => "addi"
  | .slti => "slti"
  | .sltiu => "sltiu"
  | .xori => "xori"
  | .ori => "ori"
  | .andi => "andi"
  | .slli => "slli"
  | .srli => "srli"
  | .srai => "srai"
  | .add => "add"
  | .sub => "sub"
  | .sll => "sll"
  | .slt => "slt"
  | .sltu => "sltu"
  | .xor => "xor"
  | .srl => "srl"
  | .sra => "sra"
  | .or => "or"
  | .and => "and"
  | .mul => "mul"
  | .div => "div"
  | .divu => "divu"
  | .rem => "rem"
  | .remu => "remu"
  | .ecall => "ecall"
  | .ebreak => "ebreak"
  | .fence => "fence"
  | .fenceI => "fence.i"
  | .csrrw => "csrrw"
  | .csrrs => "csrrs"
  | .csrrc => "csrrc"
  | .csrrwi => "csrrwi"
  | .csrrsi => "csrrsi"
  | .csrrci => "csrrci"

/-- How each operand kind prints (R273). -/
def operandText : Operand → String
  | .reg r => "x" ++ toString r.val
  | .signed v => toString v
  | .unsigned v => toString v
  | .hex v => "0x" ++ String.ofList (Nat.toDigits 16 v)

/-- The operands after the mnemonic: a space, then the operands separated by a comma and a space (R272). -/
def operandsText : List Operand → String
  | [] => ""
  | o :: rest => " " ++ rest.foldl (fun t p => t ++ ", " ++ operandText p) (operandText o)

/-- The text of a decode result (R272, R274): both kinds of unknown print the placeholder. -/
def render : DecodeResult → String
  | .instr i => mnemonicText i.mnemonic ++ operandsText i.operands
  | .unknown => "NIY"
  | .unknownOpcode _ => "NIY"

/-- One record of the Disassembler: address, raw word, text (R270). -/
structure DisasmRecord where
  addr : Nat
  word : Word
  text : String
  deriving DecidableEq, Repr

/-- The record at the `k`-th word of memory. -/
def disasmRecord (m : Memory) (k : Nat) : DisasmRecord :=
  let w : Word := BitVec.ofNat 32 (m.readLE (4 * k) 4)
  { addr := 4 * k, word := w, text := render (decode w) }

/-- The records at addresses 0, 4, 8, … while `a + 4 <= DISASM_LIMIT`, in ascending order (R270, R271). -/
def State.listing (s : State) : List DisasmRecord :=
  (List.range (s.cfg.disasmLimit / 4)).map (disasmRecord s.mem)

/-- `disassemble()` (R270). It raises nothing (R275), since `DISASM_LIMIT <= MEM_SIZE`; a configuration in which that, or
another limit on the parameters, does not hold is refused, as `step` refuses it (93_implementation_defined.md U21;
notes/assumptions/6.md). -/
def State.disassemble (s : State) : Host.Outcome (List DisasmRecord) Fault Refusal :=
  if s.cfg.legal then .next s.listing else .refused .illegalConfiguration

end Sys2Proof.Machine
end

