-- ==== Sys2Proof/Machine/HostInterface.lean ====
section
/-! DEFINITION. What the host can do beside `step` (spec: 00_scope.md R12; 20_memory.md R58; 70_reset_and_hazards.md R320,
R321). The host acts between steps only (20_memory.md R62). -/

namespace Sys2Proof.Machine

/-- `reset(START_PC)`, from any state: construction again, with the same parameters but the starting address (R320).
The `stop` samples to come are the host's and stay (R31). -/
def State.hostReset (s : State) (startPc : Word) : State :=
  { State.resetWith { s.cfg with startPc := startPc } with stops := s.stops }

/-- Whether no step has been taken since `reset`: a step of a running machine commits an instruction, which is counted
(R137), or halts the run (R30), so a running machine with a count of 0 has taken none (notes/assumptions/13.md). -/
def State.beforeFirstStep (s : State) : Bool :=
  match s.run with
  | .running => s.icount == 0
  | .halted _ => false

/-- `load_image(bytes)`: the bytes from address 0; refused with `MemoryFault(0, len)`, nothing written, when the image is
longer than memory (R58, D23). The Executor owns the state for the lifetime of a run (R39): once the first step is taken
the load is refused (93_implementation_defined.md U23). -/
def State.loadImage (s : State) (bytes : List Byte) : Host.Outcome State Fault Refusal :=
  if s.cfg.legal = false then .refused .illegalConfiguration
  else if s.beforeFirstStep = false then .refused .imageLoadAfterFirstStep
  else if bytes.length ≤ s.cfg.memSize then .next { s with mem := s.mem.writeBytes 0 bytes }
  else .fault (.imageMemoryFault 0 bytes.length)

/-- A launch: reset, then load the image (R321). This is how a program comes to run (notes/assumptions/8.md). -/
def launch (c : Config) (bytes : List Byte) : Host.Outcome State Fault Refusal := (State.resetWith c).loadImage bytes

/-- The run/disassemble mode selector (R12, D34). -/
inductive HostMode where
  | run
  | disassemble
  deriving DecidableEq, Repr

/-- What the core answers to the host (R13). -/
inductive HostReply where
  | stepped (outcome : Host.Outcome State Fault Refusal)
  | listing (outcome : Host.Outcome (List DisasmRecord) Fault Refusal)
  deriving Repr

/-- One call by the host: the mode selector chooses which of `step()` and `disassemble()` is called (R12). -/
def serve (mode : HostMode) (s : State) : HostReply :=
  match mode with
  | .run => .stepped (step s)
  | .disassemble => .listing s.disassemble

end Sys2Proof.Machine
end

