-- ==== Sys2Proof/Safety.lean ====
section
/-! DEFINITION. What counts as a sound state and a safe run, and the terms the statements use: what an instruction
leaves, what a commit does, which register an instruction may write (spec: 10_state.md R20 to R40; 40_step_cycle.md R137 to
R142; 60_exceptions.md R295, R298). -/

namespace Sys2Proof.Machine

/-! ### The invariant -/

/-- The trace of a state with this count: newest first, its records numbered `n`, `n - 1`, … 1 (R139). -/
def traceOk : List TraceRecord → Nat → Bool
  | [], n => n == 0
  | r :: rest, n =>
    match n with
    | 0 => false
    | k + 1 => r.count == k + 1 && traceOk rest k

/-- What every reachable state satisfies, and every step keeps. -/
structure State.Inv (s : State) : Prop where
  /-- The parameters are within the limits of R6, R9, R10, R11. -/
  legal : s.cfg.legal = true
  /-- Memory is in canonical form. -/
  memWf : s.mem.wf = true
  /-- No byte is listed outside `[0, MEM_SIZE)` (R50). -/
  memInside : s.mem.below s.cfg.memSize = true
  /-- Register 0 holds 0 at every instruction boundary (R23). -/
  zeroReg : s.x.get 0 = 0
  /-- One trace record per committed instruction, numbered from 1 (R29, R139). -/
  counted : traceOk s.trace s.icount = true
  /-- A running machine is under its budget (R141). -/
  underBudget : s.run = .running → budgetReached s.cfg s.icount = false
  /-- With `MAX_INSTRUCTIONS = n`, exactly `n` instructions commit before `BudgetExceeded` (R141). -/
  budgetExact : s.run = .halted .budgetExceeded → s.cfg.maxInstructions = some s.icount
  /-- After a fault, `pc` is the failing instruction's address and the word is still in memory (R295, R296). -/
  faultAtPc : ∀ d, s.run = .halted (.fault d) → d.pc = s.pc ∧ d.word = s.fetchWord

/-! ### How a run ends (R142) -/

/-- A failed run: it ended in a fault. -/
def State.failed (s : State) : Bool :=
  match s.run with
  | .halted (.fault _) => true
  | .halted _ => false
  | .running => false

/-- A run the program ended itself. -/
def State.endedByProgram (s : State) : Bool :=
  match s.run with
  | .halted .breakpoint => true
  | .halted .environmentCall => true
  | .halted _ => false
  | .running => false

/-! ### What a step leaves -/

/-- Every general register reads in `t` as in `s`. -/
def SameRegs (s t : State) : Prop := ∀ r : Reg, t.getReg r = s.getReg r

/-- Register `rd` reads `v` in `t`, if it is not register 0, and every other register reads as in `s`: a write to register
0 has no lasting effect (R23). -/
def RegWritten (s t : State) (rd : Reg) (v : Word) : Prop :=
  ∀ r : Reg, t.getReg r = if r = rd ∧ rd ≠ 0 then v else s.getReg r

/-- Every byte of memory reads in `t` as in `s`. -/
def SameMem (s t : State) : Prop := ∀ a : Nat, t.mem.byteAt a = s.mem.byteAt a

/-- The `n` bytes at `a` hold the low bytes of `v`, lowest first, and every other byte reads as in `s` (R54). -/
def MemStored (s t : State) (a n : Nat) (v : Word) : Prop :=
  (∀ k, k < n → (t.mem.byteAt (a + k)).toNat = v.toNat / 2 ^ (8 * k) % 256) ∧
  ∀ b : Nat, b < a ∨ a + n ≤ b → t.mem.byteAt b = s.mem.byteAt b

/-- The run state after a commit that does not halt by itself: `BudgetExceeded` when the count reaches
`MAX_INSTRUCTIONS`, else unchanged (R141). -/
def runUnlessBudget (s : State) : RunState :=
  match s.cfg.maxInstructions with
  | none => s.run
  | some n => if n ≤ s.icount + 1 then .halted .budgetExceeded else s.run

/-- What a commit of the instruction `m` leaves beside registers and memory (R137, R139): `pc`, register 0, the count, one
trace record, the run state; the parameters and the stop samples are unchanged. -/
structure Committed (s t : State) (m : Mnemonic) (nextPc : Word) (run : RunState) : Prop where
  pc : t.pc = nextPc
  zeroReg : t.x.get 0 = 0
  icount : t.icount = s.icount + 1
  trace : t.trace = { count := s.icount + 1, oldPc := s.pc, mnemonic := m } :: s.trace
  run : t.run = run
  cfg : t.cfg = s.cfg
  stops : t.stops = s.stops

/-- The instruction completes from every state: it writes `v` to `rd`, stores nothing and goes to `nextPc`. -/
def Writes (i : Instr) (rd : Reg) (v : State → Word) (nextPc : State → Word) : Prop :=
  ∀ s : State, ∃ t : State, exec i s = .next t ∧ RegWritten s t rd (v s) ∧ SameMem s t ∧
    Committed s t i.mnemonic (nextPc s) (runUnlessBudget s)

/-- The instruction completes from every state, writes `v` to `rd`, stores nothing and falls through (R136). -/
def Computes (i : Instr) (rd : Reg) (v : State → Word) : Prop := Writes i rd v (fun s => s.pc + 4#32)

/-- The instruction completes from every state, writes no register, stores nothing and goes to `nextPc`. -/
def OnlyGoesTo (i : Instr) (nextPc : State → Word) : Prop :=
  ∀ s : State, ∃ t : State, exec i s = .next t ∧ SameRegs s t ∧ SameMem s t ∧
    Committed s t i.mnemonic (nextPc s) (runUnlessBudget s)

/-- `sext_N` of R16 on a number below `2^n`: subtract `2^n` if bit `n - 1` is 1. -/
def asSigned (n v : Nat) : Int := if v < 2 ^ (n - 1) then (v : Int) else (v : Int) - (2 ^ n : Nat)

/-- Every word whose bits under `mask` are `v` decodes to the instruction `f` reads from it (R96). -/
def DecodesTo (mask v : Word) (f : Word → Instr) : Prop := ∀ w : Word, w &&& mask = v → decode w = .instr (f w)

/-- Fault entry from `s` (R295, R296): only the run state changes, to the fault with its diagnostic. -/
def faulted (s : State) (word : Option Word) (info : FaultInfo) : State :=
  { s with run := .halted (.fault { pc := s.pc, word := word, info := info }) }

/-- A load of `n` bytes at `x[rs1] + imm`, from every state: in range it completes, writing to `rd` what `value` gives of
the bytes read (byte `k` as an unsigned number) and storing nothing; out of range it is fault entry with
`MemoryFault(addr, n)` (R180). -/
def LoadsAs (i : Instr) (n : Nat) (rd rs1 : Reg) (imm : Int) (value : (Nat → Nat) → Int) : Prop :=
  ∀ s : State,
    ((s.effAddr rs1 imm).toNat + n ≤ s.cfg.memSize →
      ∃ t : State, exec i s = .next t ∧
        RegWritten s t rd (BitVec.ofInt 32 (value fun k => (s.mem.byteAt ((s.effAddr rs1 imm).toNat + k)).toNat)) ∧
        SameMem s t ∧ Committed s t i.mnemonic (s.pc + 4#32) (runUnlessBudget s)) ∧
    (s.cfg.memSize < (s.effAddr rs1 imm).toNat + n →
      exec i s = .next (faulted s s.fetchWord (.memoryFault (s.effAddr rs1 imm) n)))

/-- A store of the low `n` bytes of `x[rs2]` at `x[rs1] + imm`, from every state: in range it completes, changing those
`n` bytes and no register; out of range it is fault entry with `MemoryFault(addr, n)`, no byte written (R190). -/
def StoresAs (i : Instr) (n : Nat) (rs2 rs1 : Reg) (imm : Int) : Prop :=
  ∀ s : State,
    ((s.effAddr rs1 imm).toNat + n ≤ s.cfg.memSize →
      ∃ t : State, exec i s = .next t ∧ SameRegs s t ∧ MemStored s t (s.effAddr rs1 imm).toNat n (s.getReg rs2) ∧
        Committed s t i.mnemonic (s.pc + 4#32) (runUnlessBudget s)) ∧
    (s.cfg.memSize < (s.effAddr rs1 imm).toNat + n →
      exec i s = .next (faulted s s.fetchWord (.memoryFault (s.effAddr rs1 imm) n)))

/-- The general register an instruction may write: its `rd`, or `ECALL_LINK` for `ecall` in vector mode (R23, R138). -/
def destOf (c : Config) : Instr → Option Reg
  | .lui rd _ | .auipc rd _ | .jal rd _ => some rd
  | .jalr rd _ _ => some rd
  | .lb rd _ _ | .lh rd _ _ | .lw rd _ _ | .lbu rd _ _ | .lhu rd _ _ => some rd
  | .addi rd _ _ | .slti rd _ _ | .sltiu rd _ _ | .xori rd _ _ | .ori rd _ _ | .andi rd _ _ => some rd
  | .slli rd _ _ | .srli rd _ _ | .srai rd _ _ => some rd
  | .add rd _ _ | .sub rd _ _ | .sll rd _ _ | .slt rd _ _ | .sltu rd _ _ => some rd
  | .xor rd _ _ | .srl rd _ _ | .sra rd _ _ | .or rd _ _ | .and rd _ _ => some rd
  | .mul rd _ _ | .div rd _ _ | .divu rd _ _ | .rem rd _ _ | .remu rd _ _ => some rd
  | .ecall => if c.ecallMode = .vector then some c.ecallLink else none
  | .beq _ _ _ | .bne _ _ _ | .blt _ _ _ | .bge _ _ _ | .bltu _ _ _ | .bgeu _ _ _ => none
  | .sb _ _ _ | .sh _ _ _ | .sw _ _ _ => none
  | .ebreak | .fence | .fenceI => none
  | .csrrw _ _ _ | .csrrs _ _ _ | .csrrc _ _ _ | .csrrwi _ _ _ | .csrrsi _ _ _ | .csrrci _ _ _ => none

/-- The instructions that may redirect `pc` (R136): the branches, the jumps, and `ecall` in vector mode. -/
def redirects (c : Config) : Instr → Bool
  | .beq _ _ _ | .bne _ _ _ | .blt _ _ _ | .bge _ _ _ | .bltu _ _ _ | .bgeu _ _ _ => true
  | .jal _ _ => true
  | .jalr _ _ _ => true
  | .ecall => c.ecallMode = .vector
  | .lui _ _ | .auipc _ _ => false
  | .lb _ _ _ | .lh _ _ _ | .lw _ _ _ | .lbu _ _ _ | .lhu _ _ _ | .sb _ _ _ | .sh _ _ _ | .sw _ _ _ => false
  | .addi _ _ _ | .slti _ _ _ | .sltiu _ _ _ | .xori _ _ _ | .ori _ _ _ | .andi _ _ _ => false
  | .slli _ _ _ | .srli _ _ _ | .srai _ _ _ => false
  | .add _ _ _ | .sub _ _ _ | .sll _ _ _ | .slt _ _ _ | .sltu _ _ _ => false
  | .xor _ _ _ | .srl _ _ _ | .sra _ _ _ | .or _ _ _ | .and _ _ _ => false
  | .mul _ _ _ | .div _ _ _ | .divu _ _ _ | .rem _ _ _ | .remu _ _ _ => false
  | .ebreak | .fence | .fenceI => false
  | .csrrw _ _ _ | .csrrs _ _ _ | .csrrc _ _ _ | .csrrwi _ _ _ | .csrrsi _ _ _ | .csrrci _ _ _ => false

/-- The bytes a load reads, as its base register, displacement and width (R180 to R185); none for any other
instruction. -/
def loadOf : Instr → Option (Reg × Int × Nat)
  | .lb _ rs1 imm => some (rs1, imm, 1)
  | .lh _ rs1 imm => some (rs1, imm, 2)
  | .lw _ rs1 imm => some (rs1, imm, 4)
  | .lbu _ rs1 imm => some (rs1, imm, 1)
  | .lhu _ rs1 imm => some (rs1, imm, 2)
  | .lui _ _ | .auipc _ _ | .jal _ _ | .jalr _ _ _ => none
  | .beq _ _ _ | .bne _ _ _ | .blt _ _ _ | .bge _ _ _ | .bltu _ _ _ | .bgeu _ _ _ => none
  | .sb _ _ _ | .sh _ _ _ | .sw _ _ _ => none
  | .addi _ _ _ | .slti _ _ _ | .sltiu _ _ _ | .xori _ _ _ | .ori _ _ _ | .andi _ _ _ => none
  | .slli _ _ _ | .srli _ _ _ | .srai _ _ _ => none
  | .add _ _ _ | .sub _ _ _ | .sll _ _ _ | .slt _ _ _ | .sltu _ _ _ => none
  | .xor _ _ _ | .srl _ _ _ | .sra _ _ _ | .or _ _ _ | .and _ _ _ => none
  | .mul _ _ _ | .div _ _ _ | .divu _ _ _ | .rem _ _ _ | .remu _ _ _ => none
  | .ecall | .ebreak | .fence | .fenceI => none
  | .csrrw _ _ _ | .csrrs _ _ _ | .csrrc _ _ _ | .csrrwi _ _ _ | .csrrsi _ _ _ | .csrrci _ _ _ => none

/-- The bytes a store writes, as its base register, displacement and width (R190 to R193); none for any other
instruction. -/
def storeOf : Instr → Option (Reg × Int × Nat)
  | .sb _ rs1 imm => some (rs1, imm, 1)
  | .sh _ rs1 imm => some (rs1, imm, 2)
  | .sw _ rs1 imm => some (rs1, imm, 4)
  | .lui _ _ | .auipc _ _ | .jal _ _ | .jalr _ _ _ => none
  | .beq _ _ _ | .bne _ _ _ | .blt _ _ _ | .bge _ _ _ | .bltu _ _ _ | .bgeu _ _ _ => none
  | .lb _ _ _ | .lh _ _ _ | .lw _ _ _ | .lbu _ _ _ | .lhu _ _ _ => none
  | .addi _ _ _ | .slti _ _ _ | .sltiu _ _ _ | .xori _ _ _ | .ori _ _ _ | .andi _ _ _ => none
  | .slli _ _ _ | .srli _ _ _ | .srai _ _ _ => none
  | .add _ _ _ | .sub _ _ _ | .sll _ _ _ | .slt _ _ _ | .sltu _ _ _ => none
  | .xor _ _ _ | .srl _ _ _ | .sra _ _ _ | .or _ _ _ | .and _ _ _ => none
  | .mul _ _ _ | .div _ _ _ | .divu _ _ _ | .rem _ _ _ | .remu _ _ _ => none
  | .ecall | .ebreak | .fence | .fenceI => none
  | .csrrw _ _ _ | .csrrs _ _ _ | .csrrc _ _ _ | .csrrwi _ _ _ | .csrrsi _ _ _ | .csrrci _ _ _ => none

/-- The mnemonics of the CSR instructions, the ones that raise `UnsupportedInstruction` (R255, R294). -/
def csrMnemonics : List Mnemonic := [.csrrw, .csrrs, .csrrc, .csrrwi, .csrrsi, .csrrci]

end Sys2Proof.Machine
end

