-- ==== Sys2Proof/Certificates/Slice0/Obligations.lean ====
section
/-! DEFINITION. The statements for the provers. Each says in its docstring what it formalises. The numeric encoding
values in them are the spec's own (R97, R98), which it marks as general knowledge (G1): notes/assumptions/7.md. -/

open Sys2Proof Sys2Proof.Machine

/-! ### Reset and the invariant -/

/-- R40, R320 (decision D18 of the spec; the defaults of R6 to R9, R11): what `reset` leaves, for any parameters, from
construction and from any state; and the default machine. The content of `INIT_MEM` is a parameter. -/
def Obligations.ResetSetsEveryPieceOfState : Prop :=
  (∀ c : Config,
    (∀ r : Reg, (State.resetWith c).getReg r = if r = 2 then BitVec.ofNat 32 c.memSize else 0) ∧
    (State.resetWith c).pc = c.startPc ∧ (State.resetWith c).icount = 0 ∧ (State.resetWith c).run = .running ∧
    (State.resetWith c).trace = [] ∧ (State.resetWith c).cfg = c ∧
    ∀ a, (State.resetWith c).mem.byteAt a = Memory.byteAt c.initMem a) ∧
  (∀ (s : State) (p : Word),
    (∀ r : Reg, (s.hostReset p).getReg r = if r = 2 then BitVec.ofNat 32 s.cfg.memSize else 0) ∧
    (s.hostReset p).pc = p ∧ (s.hostReset p).icount = 0 ∧ (s.hostReset p).run = .running ∧
    (s.hostReset p).trace = [] ∧ (s.hostReset p).cfg = { s.cfg with startPc := p } ∧
    ∀ a, (s.hostReset p).mem.byteAt a = Memory.byteAt s.cfg.initMem a) ∧
  (State.reset = State.resetWith Config.default ∧ State.reset.getReg 2 = 0x00100000#32 ∧ State.reset.pc = 0#32 ∧
    Config.default.memSize = 1048576 ∧ Config.default.trapVector = 0x20#32 ∧ Config.default.ecallLink = 1 ∧
    Config.default.ecallMode = .vector ∧ Config.default.maxInstructions = none ∧
    Config.default.disasmLimit = Config.default.memSize)

/-- The invariant holds after reset with any legal parameters, the default ones among them. -/
def Obligations.ResetSatisfiesInvariant : Prop :=
  (∀ c : Config, c.legal = true → (State.resetWith c).Inv) ∧ State.reset.Inv

/-- Every step keeps the invariant: memory stays canonical and inside `[0, MEM_SIZE)`, register 0 holds 0 (R23), the
trace is numbered by the count (R29, R139), a running machine is under its budget and `BudgetExceeded` is entered at
exactly `MAX_INSTRUCTIONS` (R141), a fault's diagnostic is that of the word still at `pc` (R295, R296). -/
def Obligations.StepKeepsInvariant : Prop :=
  ∀ s t : State, s.Inv → step s = .next t → t.Inv

/-- R142, R143, R321: a launched run never gets stuck. For all legal parameters, every image that fits, every sequence of
stop samples and every number of steps, the run answers a next state, and that state satisfies the invariant. That a fault
is a next state is notes/assumptions/5.md; that the samples are a list in the state is notes/assumptions/3.md. -/
def Obligations.LaunchedRunNeverSticks : Prop :=
  ∀ (c : Config) (bytes : List Byte) (samples : List Bool) (k : Nat), c.legal = true → bytes.length ≤ c.memSize →
    ∃ s t : State, launch c bytes = .next s ∧ Host.Core.run Sys2Proof.core k { s with stops := samples } = .next t ∧ t.Inv

/-! ### Decoding and encoding -/

/-- R81: the extractor returns the unsigned integer in bits `[msb:lsb]`, single bits and the whole word included. -/
def Obligations.ExtractorReturnsTheBits : Prop :=
  ∀ w : Word,
    (∀ lsb msb : Nat, lsb ≤ msb → msb ≤ 31 → (extract w lsb msb).toNat = (w.toNat / 2 ^ lsb) % 2 ^ (msb - lsb + 1)) ∧
    (∀ k : Nat, k ≤ 31 → (extract w k k).toNat = if w.getLsbD k then 1 else 0) ∧ (extract w 0 31).toNat = w.toNat

/-- R82: the fields that sit at the same place in every format that has them, and which formats have them. -/
def Obligations.CommonFieldsStandAtTheirBits : Prop :=
  (∀ w : Word,
    (opcodeOf w).toNat = w.toNat % 2 ^ 7 ∧ (rdOf w).val = w.toNat / 2 ^ 7 % 2 ^ 5 ∧
    (funct3Of w).toNat = w.toNat / 2 ^ 12 % 2 ^ 3 ∧ (rs1Of w).val = w.toNat / 2 ^ 15 % 2 ^ 5 ∧
    (rs2Of w).val = w.toNat / 2 ^ 20 % 2 ^ 5 ∧ (funct7Of w).toNat = w.toNat / 2 ^ 25 % 2 ^ 7) ∧
  (∀ (f : Format) (hi lo : Nat),
    ((⟨.opcode, hi, lo⟩ : FieldRange) ∈ f.layout ↔ hi = 6 ∧ lo = 0) ∧
    ((⟨.rd, hi, lo⟩ : FieldRange) ∈ f.layout ↔ hi = 11 ∧ lo = 7 ∧ f ∈ [Format.r, .i, .u, .j]) ∧
    ((⟨.funct3, hi, lo⟩ : FieldRange) ∈ f.layout ↔ hi = 14 ∧ lo = 12 ∧ f ∈ [Format.r, .i, .s, .b]) ∧
    ((⟨.rs1, hi, lo⟩ : FieldRange) ∈ f.layout ↔ hi = 19 ∧ lo = 15 ∧ f ∈ [Format.r, .i, .s, .b]) ∧
    ((⟨.rs2, hi, lo⟩ : FieldRange) ∈ f.layout ↔ hi = 24 ∧ lo = 20 ∧ f ∈ [Format.r, .s, .b]) ∧
    ((⟨.funct7, hi, lo⟩ : FieldRange) ∈ f.layout ↔ hi = 31 ∧ lo = 25 ∧ f = .r))

/-- R89 to R94 (fragment places: G2, general knowledge; D11, D28): every immediate and special field, assembled from the
numbers of its fragments and sign-extended from its width. -/
def Obligations.ImmediatesAreAssembledFromTheirFragments : Prop :=
  ∀ w : Word,
    immI w = asSigned 12 (w.toNat / 2 ^ 20) ∧
    immS w = asSigned 12 (w.toNat / 2 ^ 25 * 32 + w.toNat / 2 ^ 7 % 32) ∧
    immB w = asSigned 13 (w.toNat / 2 ^ 31 * 4096 + w.toNat / 2 ^ 7 % 2 * 2048 + w.toNat / 2 ^ 25 % 64 * 32 +
      w.toNat / 2 ^ 8 % 16 * 2) ∧
    immJ w = asSigned 21 (w.toNat / 2 ^ 31 * 2 ^ 20 + w.toNat / 2 ^ 12 % 256 * 4096 + w.toNat / 2 ^ 20 % 2 * 2048 +
      w.toNat / 2 ^ 21 % 1024 * 2) ∧
    (imm20Of w).toNat = w.toNat / 2 ^ 12 ∧ (shamtOf w).val = w.toNat / 2 ^ 20 % 32 ∧
    (csrOf w).toNat = w.toNat / 2 ^ 20 ∧ (uimmOf w).val = w.toNat / 2 ^ 15 % 32

/-- R107: B and J immediates are even and in the exact ranges. -/
def Obligations.BranchAndJumpImmediatesAreEvenAndInRange : Prop :=
  ∀ w : Word, immB w % 2 = 0 ∧ -4096 ≤ immB w ∧ immB w ≤ 4094 ∧
    immJ w % 2 = 0 ∧ -1048576 ≤ immJ w ∧ immJ w ≤ 1048574

/-- R89 to R93, R107: whatever decodes is well-formed. -/
def Obligations.DecodedInstructionsAreWellFormed : Prop :=
  ∀ (w : Word) (i : Instr), decode w = .instr i → i.wellFormed = true

/-- R96: the dispatch of the Decoder and the opcode table's masks and matches say the same, on every word and every row;
so no two rows overlap. -/
def Obligations.DecodeAgreesWithTheOpcodeTable : Prop :=
  ∀ (w : Word) (m : Mnemonic), (∃ i : Instr, decode w = .instr i ∧ i.mnemonic = m) ↔ w &&& m.mask = m.matchWord

/-- R95, R97, R101: `UnknownOpcode` exactly for the words whose low seven bits are none of the 11 opcodes, carrying them. -/
def Obligations.UnknownOpcodeExactlyOutsideTheMap : Prop :=
  ∀ (w : Word) (op : BitVec 7), decode w = .unknownOpcode op ↔
    op.toNat = w.toNat % 128 ∧
      op ∉ [0x37#7, 0x17#7, 0x6F#7, 0x67#7, 0x63#7, 0x03#7, 0x23#7, 0x13#7, 0x33#7, 0x0F#7, 0x73#7]

/-- R102: the complete list of the words that decode to the `unknown` mnemonic. -/
def Obligations.UnknownMnemonicExactlyTheListedForms : Prop :=
  ∀ w : Word, decode w = .unknown ↔
    (opcodeOf w = 0x67#7 ∧ funct3Of w ≠ 0) ∨
    (opcodeOf w = 0x63#7 ∧ (funct3Of w = 2 ∨ funct3Of w = 3)) ∨
    (opcodeOf w = 0x03#7 ∧ (funct3Of w = 3 ∨ funct3Of w = 6 ∨ funct3Of w = 7)) ∨
    (opcodeOf w = 0x23#7 ∧ (funct3Of w = 3 ∨ funct3Of w = 4 ∨ funct3Of w = 5 ∨ funct3Of w = 6 ∨ funct3Of w = 7)) ∨
    (opcodeOf w = 0x13#7 ∧ ((funct3Of w = 1 ∧ funct7Of w ≠ 0) ∨
      (funct3Of w = 5 ∧ funct7Of w ≠ 0 ∧ funct7Of w ≠ 0x20#7))) ∨
    (opcodeOf w = 0x33#7 ∧ ((funct7Of w ≠ 0 ∧ funct7Of w ≠ 0x20#7 ∧ funct7Of w ≠ 1) ∨
      (funct7Of w = 0x20#7 ∧ funct3Of w ≠ 0 ∧ funct3Of w ≠ 5) ∨
      (funct7Of w = 1 ∧ (funct3Of w = 1 ∨ funct3Of w = 2 ∨ funct3Of w = 3)))) ∨
    (opcodeOf w = 0x0F#7 ∧ funct3Of w ≠ 0 ∧ funct3Of w ≠ 1) ∨
    (opcodeOf w = 0x73#7 ∧ (funct3Of w = 4 ∨ (funct3Of w = 0 ∧ w ≠ 0x00000073#32 ∧ w ≠ 0x00100073#32)))

/-- R108: decoding the encoding of a well-formed instruction gives it back, for all 52 mnemonics and every operand the
encoding admits. -/
def Obligations.DecodeAfterEncodeIsIdentity : Prop :=
  ∀ i : Instr, i.wellFormed = true → decode (encode i) = .instr i

/-- The other direction: every word that decodes is the encoding of what it decodes to. The two fences are outside, since
their other fields are not examined (R253, R254, D15); of them, every word that fits the row decodes to the same
instruction. -/
def Obligations.EncodeAfterDecodeIsIdentity : Prop :=
  (∀ (w : Word) (i : Instr), decode w = .instr i → i ≠ .fence → i ≠ .fenceI → encode i = w) ∧
  (∀ w : Word, decode w = .instr .fence ↔ w &&& 0x0000707F#32 = 0x0000000F#32) ∧
  (∀ w : Word, decode w = .instr .fenceI ↔ w &&& 0x0000707F#32 = 0x0000100F#32)

/-- One word of each family, as the spec's examples write it (41 to 49, 95 section 2.1), decodes to its instruction. -/
def Obligations.SampleWordsDecode : Prop :=
  decode 0x000012B7#32 = .instr (.lui 5 0x1#20) ∧ decode 0x00001297#32 = .instr (.auipc 5 0x1#20) ∧
  decode 0x00C000EF#32 = .instr (.jal 1 12) ∧ decode 0x004280E7#32 = .instr (.jalr 1 5 4) ∧
  decode 0xFE2098E3#32 = .instr (.bne 1 2 (-16)) ∧ decode 0xFFC2A303#32 = .instr (.lw 6 5 (-4)) ∧
  decode 0xFE629FA3#32 = .instr (.sh 6 5 (-1)) ∧ decode 0xFFF00093#32 = .instr (.addi 1 0 (-1)) ∧
  decode 0x40435293#32 = .instr (.srai 5 6 4) ∧ decode 0x407302B3#32 = .instr (.sub 5 6 7) ∧
  decode 0x027342B3#32 = .instr (.div 5 6 7) ∧ decode 0x00100073#32 = .instr .ebreak ∧
  decode 0x8330000F#32 = .instr .fence ∧ decode 0x305312F3#32 = .instr (.csrrw 5 0x305#12 6)

/-! ### The step -/

/-- R130, R135: when the four bytes at `pc` decode to an instruction, the step of a running machine whose stop sample is
not set is that instruction's `exec`, the sample taken. -/
def Obligations.StepRunsTheDecodedInstruction : Prop :=
  ∀ (s : State) (i : Instr), s.cfg.legal = true → s.run = .running → s.stops.headD false = false →
    s.pc.toNat + 4 ≤ s.cfg.memSize →
    decodeBytes (s.mem.byteAt s.pc.toNat) (s.mem.byteAt (s.pc.toNat + 1)) (s.mem.byteAt (s.pc.toNat + 2))
      (s.mem.byteAt (s.pc.toNat + 3)) = .instr i →
    step s = exec i { s with stops := s.stops.tail }

/-- R30 (decision D24): a halted machine does not change, whatever the reason. -/
def Obligations.HaltedMachineDoesNotChange : Prop :=
  ∀ (s : State) (r : HaltReason), s.cfg.legal = true → s.run = .halted r → step s = .next s

/-- R306: a set stop sample halts the run before anything else happens, whatever the state; nothing else changes. That the
sample is looked at before the fetch is decision D20 of the spec (notes/assumptions/12.md); that the samples are a list
from which one is taken off is the model's choice (notes/assumptions/3.md). Software cannot observe the input: a step whose
sample is not set gives the same state whatever samples are still to come, these themselves apart. -/
def Obligations.StopHaltsFirstAndCannotBeObserved : Prop :=
  (∀ (s : State) (rest : List Bool), s.cfg.legal = true → s.run = .running → s.stops = true :: rest →
    step s = .next { s with run := .halted .stopped, stops := rest }) ∧
  (∀ (s t : State) (rest : List Bool), s.run = .running → s.stops.headD false = false → step s = .next t →
    step { s with stops := false :: rest } = .next { t with stops := rest })

/-- R133: the fetched word is the little-endian word at `pc`, at any alignment, and a fetch beyond memory is fault entry
with `MemoryFault(pc, 4)` and no word. What fault entry leaves and reports is R295 and R296, by decisions D17 and D35 of
the spec (notes/assumptions/12.md); that it is a next state and that the sample is taken off the list are
notes/assumptions/5.md and 3.md. -/
def Obligations.FetchIsAWordReadAtPc : Prop :=
  ∀ s : State,
    (s.pc.toNat + 4 ≤ s.cfg.memSize → ∃ w : Word, s.fetchWord = some w ∧
      w.toNat = (s.mem.byteAt s.pc.toNat).toNat + 2 ^ 8 * (s.mem.byteAt (s.pc.toNat + 1)).toNat +
        2 ^ 16 * (s.mem.byteAt (s.pc.toNat + 2)).toNat + 2 ^ 24 * (s.mem.byteAt (s.pc.toNat + 3)).toNat) ∧
    (s.cfg.memSize < s.pc.toNat + 4 → s.cfg.legal = true → s.run = .running → s.stops.headD false = false →
      step s = .next (faulted { s with stops := s.stops.tail } none (.memoryFault s.pc 4)))

/-- R134, R291, R292: a fetched word with an unknown opcode, or with the `unknown` mnemonic, is fault entry of its own
kind; the diagnostic holds the address, the word and, for an unknown opcode, its low seven bits. -/
def Obligations.UndecodableWordsRaiseTheirFault : Prop :=
  ∀ (s : State) (w : Word), s.cfg.legal = true → s.run = .running → s.stops.headD false = false →
    s.fetchWord = some w →
    (∀ op : BitVec 7, decode w = .unknownOpcode op →
      op.toNat = w.toNat % 128 ∧
      step s = .next (faulted { s with stops := s.stops.tail } (some w) (.unknownOpcode op))) ∧
    (decode w = .unknown → step s = .next (faulted { s with stops := s.stops.tail } (some w) .unknownFunct))

/-- The model is total: every instruction answers a next state from every state, every step of a legally configured
machine does, and a configuration the spec refuses (93 U14, U16, U21) is refused, whatever its state
(notes/assumptions/5.md, 6.md). -/
def Obligations.LegalMachineAlwaysSteps : Prop :=
  (∀ (i : Instr) (s : State), ∃ t : State, exec i s = .next t) ∧
  (∀ s : State, s.cfg.legal = true → ∃ t : State, step s = .next t) ∧
  (∀ s : State, s.cfg.legal = false → step s = .refused .illegalConfiguration) ∧
  (∀ s : State, s.cfg.legal = true ↔ 4 ≤ s.cfg.memSize ∧ s.cfg.memSize ≤ 2 ^ 32 ∧ s.cfg.maxInstructions ≠ some 0 ∧
    Memory.wf s.cfg.initMem = true ∧ Memory.below s.cfg.initMem s.cfg.memSize = true ∧
    s.cfg.disasmLimit ≤ s.cfg.memSize)

/-- R295, R298 (decision D17): a step that ends in a fault leaves registers, `pc`, memory, count, trace and parameters
exactly as they were, reports the failing address and the word there, and the run is over. -/
def Obligations.FaultingStepChangesOnlyTheRunState : Prop :=
  ∀ (s t : State) (d : Diag), s.run = .running → step s = .next t → t.run = .halted (.fault d) →
    t = { s with run := .halted (.fault d), stops := s.stops.tail } ∧ d.pc = s.pc ∧ d.word = s.fetchWord ∧
    step t = .next t

/-- R130, R137, R139 (decision D19 for the count): a step either commits nothing, and changes neither registers, `pc`,
memory, count nor trace, or commits exactly the instruction fetched at `pc` and emits its one record. -/
def Obligations.StepCommitsAtMostOneInstruction : Prop :=
  ∀ s t : State, step s = .next t →
    (t.icount = s.icount ∧ t.trace = s.trace ∧ t.x = s.x ∧ t.pc = s.pc ∧ t.mem = s.mem) ∨
    (t.icount = s.icount + 1 ∧ s.run = .running ∧ t.x.get 0 = 0 ∧
      ∃ (w : Word) (i : Instr), s.fetchWord = some w ∧ decode w = .instr i ∧
        t.trace = { count := s.icount + 1, oldPc := s.pc, mnemonic := i.mnemonic } :: s.trace)

/-- R30's table, R140, R141, and the four kinds of R290 (R291 to R294): each reason to halt, and each kind of fault, is
entered by its own cause only. -/
def Obligations.HaltReasonsHaveTheirCauses : Prop :=
  ∀ s t : State, s.run = .running → step s = .next t →
    (t.run = .halted .stopped ↔ s.stops.headD false = true) ∧
    (t.run = .halted .breakpoint → ∃ w, s.fetchWord = some w ∧ decode w = .instr .ebreak) ∧
    (t.run = .halted .environmentCall →
      s.cfg.ecallMode = .halt ∧ ∃ w, s.fetchWord = some w ∧ decode w = .instr .ecall) ∧
    (t.run = .halted .budgetExceeded →
      t.icount = s.icount + 1 ∧ ∃ n, s.cfg.maxInstructions = some n ∧ n ≤ t.icount) ∧
    (∀ (p : Word) (d : Option Word) (op : BitVec 7), t.run = .halted (.fault ⟨p, d, .unknownOpcode op⟩) →
      ∃ w, s.fetchWord = some w ∧ decode w = .unknownOpcode op) ∧
    (∀ (p : Word) (d : Option Word), t.run = .halted (.fault ⟨p, d, .unknownFunct⟩) →
      ∃ w, s.fetchWord = some w ∧ decode w = .unknown) ∧
    (∀ (p : Word) (d : Option Word) (a : Word) (n : Nat), t.run = .halted (.fault ⟨p, d, .memoryFault a n⟩) →
      s.cfg.memSize < a.toNat + n ∧
        ((s.fetchWord = none ∧ a = s.pc ∧ n = 4) ∨
          ∃ w i rs1 imm, s.fetchWord = some w ∧ decode w = .instr i ∧
            (loadOf i = some (rs1, imm, n) ∨ storeOf i = some (rs1, imm, n)) ∧ a = s.effAddr rs1 imm)) ∧
    (∀ (p : Word) (d : Option Word) (m : Mnemonic), t.run = .halted (.fault ⟨p, d, .unsupportedInstruction m⟩) →
      m ∈ csrMnemonics ∧
        ∃ w i, s.fetchWord = some w ∧ decode w = .instr i ∧ i.mnemonic = m)

/-- R136: an instruction that commits and is no branch, jump or `ecall` in vector mode leaves `pc` at
`u32(old_pc + 4)`. -/
def Obligations.OnlyRedirectsLeaveTheSequence : Prop :=
  ∀ (i : Instr) (s t : State), exec i s = .next t → t.icount = s.icount + 1 → redirects s.cfg i = false →
    t.pc = BitVec.ofNat 32 (s.pc.toNat + 4)

/-- R23, R138: an instruction writes at most its own destination register; every other register keeps its value. -/
def Obligations.OnlyTheDestinationRegisterChanges : Prop :=
  ∀ (i : Instr) (s t : State), exec i s = .next t → ∀ r : Reg, destOf s.cfg i ≠ some r → t.getReg r = s.getReg r

/-- R51, R54: only a store changes memory, and only its own bytes, at the effective address. -/
def Obligations.OnlyStoresChangeMemory : Prop :=
  ∀ (i : Instr) (s t : State), exec i s = .next t →
    (storeOf i = none → SameMem s t) ∧
    (∀ (rs1 : Reg) (imm : Int) (n : Nat), storeOf i = some (rs1, imm, n) →
      ∀ a : Nat, a < (s.effAddr rs1 imm).toNat ∨ (s.effAddr rs1 imm).toNat + n ≤ a →
        t.mem.byteAt a = s.mem.byteAt a)

/-- R38, R321: no step changes a parameter; a step of a running machine takes exactly one stop sample, a step of a halted
one takes none. -/
def Obligations.StepKeepsTheParameters : Prop :=
  ∀ s t : State, step s = .next t →
    t.cfg = s.cfg ∧ (s.run = .running → t.stops = s.stops.tail) ∧ (s.run ≠ .running → t.stops = s.stops)

/-- R29, R32: the count and the trace cannot be observed by a program. Two machines that differ only there step alike in
registers, `pc`, memory and, without a budget, run state. -/
def Obligations.CountAndTraceAreInvisible : Prop :=
  ∀ (s t : State) (n : Nat) (tr : List TraceRecord), step s = .next t →
    ∃ u : State, step { s with icount := n, trace := tr } = .next u ∧
      u.x = t.x ∧ u.pc = t.pc ∧ u.mem = t.mem ∧ u.cfg = t.cfg ∧ u.stops = t.stops ∧
      (s.cfg.maxInstructions = none → u.run = t.run)

/-- The placing of a word for the host: the very next step runs what the word decodes to, from a state that differs from
`s` in the four bytes at `pc` only (and is running), and the host's decoder is this decoder. -/
def Obligations.PlacedWordIsRunNext : Prop :=
  ∀ (s : State) (w : Word) (i : Instr), s.cfg.legal = true → s.pc.toNat + 4 ≤ s.cfg.memSize → decode w = .instr i →
    decodeTableWord 32 w.toNat = some i ∧
    ∃ u : State, step (s.withFetchWord 32 w.toNat) = exec i u ∧ u.fetchWord = some w ∧
      u.x = s.x ∧ u.pc = s.pc ∧ u.icount = s.icount ∧ u.cfg = s.cfg ∧ u.trace = s.trace ∧ u.run = .running ∧
      u.stops = s.stops.tail ∧ MemStored s u s.pc.toNat 4 w

/-! ### Memory and the host's operations -/

/-- R53: `MemRead` is the little-endian sum of the bytes, or a fault beyond memory. -/
def Obligations.MemReadIsTheLittleEndianSum : Prop :=
  ∀ (s : State) (addr : Word) (n : Nat), n ∈ [1, 2, 4] →
    s.memRead addr n =
      if addr.toNat + n > s.cfg.memSize then none
      else some ((List.range n).map (fun i => (s.mem.byteAt (addr.toNat + i)).toNat * 2 ^ (8 * i))).sum

/-- R54 (decision D17 for the fault): `MemWrite` stores exactly the low bytes of the value, or nothing. -/
def Obligations.MemWriteStoresExactlyTheBytes : Prop :=
  ∀ (s : State) (addr : Word) (n : Nat) (v : Word), n ∈ [1, 2, 4] →
    (addr.toNat + n > s.cfg.memSize → s.memWrite addr n v = none) ∧
    (addr.toNat + n ≤ s.cfg.memSize → ∃ t : State, s.memWrite addr n v = some t ∧ MemStored s t addr.toNat n v ∧
      t = { s with mem := t.mem })

/-- R60, R63: a read returns what was last written there, cut to the width, and a write elsewhere does not change it. -/
def Obligations.ReadAfterWriteReturnsTheValue : Prop :=
  ∀ (s t : State) (addr : Word) (n : Nat) (v : Word), n ∈ [1, 2, 4] → s.memWrite addr n v = some t →
    t.memRead addr n = some (v.toNat % 2 ^ (8 * n)) ∧
    ∀ (b : Word) (k : Nat), (b.toNat + k ≤ addr.toNat ∨ addr.toNat + n ≤ b.toNat) → t.memRead b k = s.memRead b k

/-- R55 (decision D6): the boundary of memory of `N` bytes, for reads and writes alike; an access never wraps. -/
def Obligations.AccessesEndAtTheBoundary : Prop :=
  ∀ (s : State) (addr v : Word), s.cfg.legal = true →
    (addr.toNat = s.cfg.memSize - 4 → (s.memRead addr 4).isSome = true ∧ (s.memWrite addr 4 v).isSome = true) ∧
    (s.cfg.memSize - 3 ≤ addr.toNat → s.memRead addr 4 = none ∧ s.memWrite addr 4 v = none) ∧
    (addr.toNat = s.cfg.memSize - 1 → (s.memRead addr 1).isSome = true ∧ (s.memWrite addr 1 v).isSome = true) ∧
    (s.cfg.memSize ≤ addr.toNat → s.memRead addr 1 = none ∧ s.memWrite addr 1 v = none)

/-- R52, the source's example and the half words the spec derives from it: `0xDEADBEEF` stored at 0. -/
def Obligations.StoredWordIsLittleEndian : Prop :=
  ∀ s : State, 4 ≤ s.cfg.memSize → ∃ t : State, s.memWrite 0 4 0xDEADBEEF#32 = some t ∧
    t.memRead 0 4 = some 0xDEADBEEF ∧
    t.memRead 0 1 = some 0xEF ∧ t.memRead 1 1 = some 0xBE ∧ t.memRead 2 1 = some 0xAD ∧ t.memRead 3 1 = some 0xDE ∧
    t.memRead 0 2 = some 0xBEEF ∧ t.memRead 1 2 = some 0xADBE ∧ t.memRead 2 2 = some 0xDEAD

/-- R67 (decision D5): the effective address is the sum of the base register and the displacement modulo 2^32. -/
def Obligations.EffectiveAddressWraps : Prop :=
  ∀ (s : State) (rs1 : Reg) (imm : Int),
    ((s.effAddr rs1 imm).toNat : Int) = (((s.getReg rs1).toNat : Int) + imm) % 2 ^ 32

/-- R65, R332: a word stored over the next instruction is what the very next fetch reads. -/
def Obligations.StoreIsSeenByTheNextFetch : Prop :=
  ∀ (s t : State) (rs2 rs1 : Reg) (imm : Int), exec (.sw rs2 rs1 imm) s = .next t → t.icount = s.icount + 1 →
    s.effAddr rs1 imm = s.pc + 4#32 → t.fetchWord = some (s.getReg rs2)

/-- R58 (decision D23): before the first step the image is copied from address 0 and nothing else changes, and an image
longer than memory is refused with `MemoryFault(0, len)`. R39 (93 U23): once a step is taken, the load is refused; that a
running machine with a count of 0 has taken none, and that a configuration which `step` refuses is refused here too, are
notes/assumptions/13.md and 6.md. -/
def Obligations.LoadImageCopiesBeforeTheFirstStepOnly : Prop :=
  (∀ (s : State) (bytes : List Byte), s.cfg.legal = true → s.run = .running → s.icount = 0 →
    (bytes.length ≤ s.cfg.memSize → ∃ t : State, s.loadImage bytes = .next t ∧ t = { s with mem := t.mem } ∧
      (∀ (k : Nat) (h : k < bytes.length), t.mem.byteAt k = bytes[k]) ∧
      ∀ a : Nat, bytes.length ≤ a → t.mem.byteAt a = s.mem.byteAt a) ∧
    (s.cfg.memSize < bytes.length → s.loadImage bytes = .fault (.imageMemoryFault 0 bytes.length))) ∧
  (∀ (s t : State) (bytes : List Byte), step s = .next t → t.loadImage bytes = .refused .imageLoadAfterFirstStep) ∧
  (∀ (s : State) (bytes : List Byte), s.cfg.legal = true → s.run ≠ .running ∨ s.icount ≠ 0 →
    s.loadImage bytes = .refused .imageLoadAfterFirstStep) ∧
  (∀ (s : State) (bytes : List Byte), s.cfg.legal = false → s.loadImage bytes = .refused .illegalConfiguration)

/-- R271, R274 (decisions D21, D22): one record per whole word below `DISASM_LIMIT`, in ascending order, each with the
little-endian word at its address, inside memory, and the text of what the one Decoder reads from it; both kinds of unknown
print `NIY`. A limit beyond memory is refused (R11, 93 U21), as is every configuration that `step` refuses
(notes/assumptions/6.md). -/
def Obligations.DisassemblyListsEveryWord : Prop :=
  ∀ s : State,
    (s.cfg.legal = true → ∃ records : List DisasmRecord, s.disassemble = .next records ∧
      records.length = s.cfg.disasmLimit / 4 ∧
      ∀ (k : Nat) (h : k < records.length),
        (records[k]).addr = 4 * k ∧ 4 * k + 4 ≤ s.cfg.memSize ∧
        (records[k]).word.toNat = (s.mem.byteAt (4 * k)).toNat + 2 ^ 8 * (s.mem.byteAt (4 * k + 1)).toNat +
          2 ^ 16 * (s.mem.byteAt (4 * k + 2)).toNat + 2 ^ 24 * (s.mem.byteAt (4 * k + 3)).toNat ∧
        (∀ i : Instr, decode (records[k]).word = .instr i →
          (records[k]).text = mnemonicText i.mnemonic ++ operandsText i.operands) ∧
        ((∀ i : Instr, decode (records[k]).word ≠ .instr i) → (records[k]).text = "NIY")) ∧
    (s.cfg.memSize < s.cfg.disasmLimit → s.disassemble = .refused .illegalConfiguration) ∧
    (s.cfg.legal = false → s.disassemble = .refused .illegalConfiguration)

/-- R270, last sentence: the mnemonic a trace record shows for a word is the one the Disassembler prints for it. -/
def Obligations.TraceShowsTheDisassembledMnemonic : Prop :=
  ∀ (s t : State) (records : List DisasmRecord) (k : Nat) (h : k < records.length), s.disassemble = .next records →
    s.pc.toNat = 4 * k → step s = .next t → t.icount = s.icount + 1 →
    ∃ (r : TraceRecord) (ops : List Operand), t.trace = r :: s.trace ∧ r.oldPc = s.pc ∧
      (records[k]).text = mnemonicText r.mnemonic ++ operandsText ops

/-! ### The instructions -/

/-- R150, R151: `lui`, `auipc`. -/
def Obligations.UpperImmediateResults : Prop :=
  DecodesTo 0x0000007F#32 0x00000037#32 (fun w => .lui (rdOf w) (imm20Of w)) ∧
  DecodesTo 0x0000007F#32 0x00000017#32 (fun w => .auipc (rdOf w) (imm20Of w)) ∧
  (∀ (rd : Reg) (imm20 : BitVec 20), Computes (.lui rd imm20) rd (fun _ => BitVec.ofNat 32 (imm20.toNat * 4096))) ∧
  (∀ (rd : Reg) (imm20 : BitVec 20),
    Computes (.auipc rd imm20) rd (fun s => BitVec.ofNat 32 (s.pc.toNat + imm20.toNat * 4096)))

/-- R160: `jal`. -/
def Obligations.JalLinksAndJumps : Prop :=
  DecodesTo 0x0000007F#32 0x0000006F#32 (fun w => .jal (rdOf w) (immJ w)) ∧
  ∀ (rd : Reg) (imm : Int), Writes (.jal rd imm) rd (fun s => BitVec.ofNat 32 (s.pc.toNat + 4))
    (fun s => BitVec.ofInt 32 (s.pc.toNat + imm))

/-- R161 (decision D7 of the spec: bit 0 of the target is not cleared; D25 for the encoding): `jalr`; the target is
computed from the register before the link is written. -/
def Obligations.JalrLinksAndJumpsToTheExactSum : Prop :=
  DecodesTo 0x0000707F#32 0x00000067#32 (fun w => .jalr (rdOf w) (rs1Of w) (immI w)) ∧
  ∀ (rd rs1 : Reg) (imm : Int), Writes (.jalr rd rs1 imm) rd (fun s => BitVec.ofNat 32 (s.pc.toNat + 4))
    (fun s => BitVec.ofInt 32 ((s.getReg rs1).toNat + imm))

/-- R170 to R176: the six branches write no register and no memory, and go to `u32(old_pc + imm)` if taken, else to
`u32(old_pc + 4)`; `funct3` 010 and 011 are unknown. -/
def Obligations.BranchesTestAndGo : Prop :=
  (DecodesTo 0x0000707F#32 0x00000063#32 (fun w => .beq (rs1Of w) (rs2Of w) (immB w)) ∧
    DecodesTo 0x0000707F#32 0x00001063#32 (fun w => .bne (rs1Of w) (rs2Of w) (immB w)) ∧
    DecodesTo 0x0000707F#32 0x00004063#32 (fun w => .blt (rs1Of w) (rs2Of w) (immB w)) ∧
    DecodesTo 0x0000707F#32 0x00005063#32 (fun w => .bge (rs1Of w) (rs2Of w) (immB w)) ∧
    DecodesTo 0x0000707F#32 0x00006063#32 (fun w => .bltu (rs1Of w) (rs2Of w) (immB w)) ∧
    DecodesTo 0x0000707F#32 0x00007063#32 (fun w => .bgeu (rs1Of w) (rs2Of w) (immB w)) ∧
    ∀ w : Word, (w &&& 0x0000707F#32 = 0x00002063#32 ∨ w &&& 0x0000707F#32 = 0x00003063#32) → decode w = .unknown) ∧
  ∀ (rs1 rs2 : Reg) (imm : Int),
    OnlyGoesTo (.beq rs1 rs2 imm) (fun s => if s.getReg rs1 = s.getReg rs2
      then BitVec.ofInt 32 (s.pc.toNat + imm) else BitVec.ofNat 32 (s.pc.toNat + 4)) ∧
    OnlyGoesTo (.bne rs1 rs2 imm) (fun s => if s.getReg rs1 ≠ s.getReg rs2
      then BitVec.ofInt 32 (s.pc.toNat + imm) else BitVec.ofNat 32 (s.pc.toNat + 4)) ∧
    OnlyGoesTo (.blt rs1 rs2 imm) (fun s => if (s.getReg rs1).toInt < (s.getReg rs2).toInt
      then BitVec.ofInt 32 (s.pc.toNat + imm) else BitVec.ofNat 32 (s.pc.toNat + 4)) ∧
    OnlyGoesTo (.bge rs1 rs2 imm) (fun s => if (s.getReg rs1).toInt ≥ (s.getReg rs2).toInt
      then BitVec.ofInt 32 (s.pc.toNat + imm) else BitVec.ofNat 32 (s.pc.toNat + 4)) ∧
    OnlyGoesTo (.bltu rs1 rs2 imm) (fun s => if (s.getReg rs1).toNat < (s.getReg rs2).toNat
      then BitVec.ofInt 32 (s.pc.toNat + imm) else BitVec.ofNat 32 (s.pc.toNat + 4)) ∧
    OnlyGoesTo (.bgeu rs1 rs2 imm) (fun s => if (s.getReg rs1).toNat ≥ (s.getReg rs2).toNat
      then BitVec.ofInt 32 (s.pc.toNat + imm) else BitVec.ofNat 32 (s.pc.toNat + 4))

/-- R181 to R185: the five loads, in range and out of range (R180). -/
def Obligations.LoadsReadAndExtend : Prop :=
  (DecodesTo 0x0000707F#32 0x00000003#32 (fun w => .lb (rdOf w) (rs1Of w) (immI w)) ∧
    DecodesTo 0x0000707F#32 0x00001003#32 (fun w => .lh (rdOf w) (rs1Of w) (immI w)) ∧
    DecodesTo 0x0000707F#32 0x00002003#32 (fun w => .lw (rdOf w) (rs1Of w) (immI w)) ∧
    DecodesTo 0x0000707F#32 0x00004003#32 (fun w => .lbu (rdOf w) (rs1Of w) (immI w)) ∧
    DecodesTo 0x0000707F#32 0x00005003#32 (fun w => .lhu (rdOf w) (rs1Of w) (immI w))) ∧
  ∀ (rd rs1 : Reg) (imm : Int),
    LoadsAs (.lb rd rs1 imm) 1 rd rs1 imm (fun b => asSigned 8 (b 0)) ∧
    LoadsAs (.lh rd rs1 imm) 2 rd rs1 imm (fun b => asSigned 16 (b 0 + 256 * b 1)) ∧
    LoadsAs (.lw rd rs1 imm) 4 rd rs1 imm (fun b => ((b 0 + 2 ^ 8 * b 1 + 2 ^ 16 * b 2 + 2 ^ 24 * b 3 : Nat) : Int)) ∧
    LoadsAs (.lbu rd rs1 imm) 1 rd rs1 imm (fun b => ((b 0 : Nat) : Int)) ∧
    LoadsAs (.lhu rd rs1 imm) 2 rd rs1 imm (fun b => ((b 0 + 256 * b 1 : Nat) : Int))

/-- R191 to R193: the three stores, in range and out of range (R190). -/
def Obligations.StoresWriteTheLowBytes : Prop :=
  (DecodesTo 0x0000707F#32 0x00000023#32 (fun w => .sb (rs2Of w) (rs1Of w) (immS w)) ∧
    DecodesTo 0x0000707F#32 0x00001023#32 (fun w => .sh (rs2Of w) (rs1Of w) (immS w)) ∧
    DecodesTo 0x0000707F#32 0x00002023#32 (fun w => .sw (rs2Of w) (rs1Of w) (immS w))) ∧
  ∀ (rs2 rs1 : Reg) (imm : Int),
    StoresAs (.sb rs2 rs1 imm) 1 rs2 rs1 imm ∧ StoresAs (.sh rs2 rs1 imm) 2 rs2 rs1 imm ∧
    StoresAs (.sw rs2 rs1 imm) 4 rs2 rs1 imm

/-- R201, R202: `addi`, `slti`, for every immediate their encoding admits. -/
def Obligations.AddiAndSltiResults : Prop :=
  DecodesTo 0x0000707F#32 0x00000013#32 (fun w => .addi (rdOf w) (rs1Of w) (immI w)) ∧
  DecodesTo 0x0000707F#32 0x00002013#32 (fun w => .slti (rdOf w) (rs1Of w) (immI w)) ∧
  ∀ (rd rs1 : Reg) (imm : Int), -2048 ≤ imm → imm ≤ 2047 →
    Computes (.addi rd rs1 imm) rd (fun s => BitVec.ofInt 32 ((s.getReg rs1).toNat + imm)) ∧
    Computes (.slti rd rs1 imm) rd (fun s => if (s.getReg rs1).toInt < imm then 1#32 else 0#32)

/-- R203 to R206 (decision D11 of the spec: the immediate is sign-extended for these four too): `sltiu`, `xori`, `ori`,
`andi`. -/
def Obligations.UnsignedCompareAndLogicalImmediateResults : Prop :=
  DecodesTo 0x0000707F#32 0x00003013#32 (fun w => .sltiu (rdOf w) (rs1Of w) (immI w)) ∧
  DecodesTo 0x0000707F#32 0x00004013#32 (fun w => .xori (rdOf w) (rs1Of w) (immI w)) ∧
  DecodesTo 0x0000707F#32 0x00006013#32 (fun w => .ori (rdOf w) (rs1Of w) (immI w)) ∧
  DecodesTo 0x0000707F#32 0x00007013#32 (fun w => .andi (rdOf w) (rs1Of w) (immI w)) ∧
  ∀ (rd rs1 : Reg) (imm : Int),
    Computes (.sltiu rd rs1 imm) rd
      (fun s => if ((s.getReg rs1).toNat : Int) < imm % 2 ^ 32 then 1#32 else 0#32) ∧
    Computes (.xori rd rs1 imm) rd (fun s => s.getReg rs1 ^^^ BitVec.ofInt 32 imm) ∧
    Computes (.ori rd rs1 imm) rd (fun s => s.getReg rs1 ||| BitVec.ofInt 32 imm) ∧
    Computes (.andi rd rs1 imm) rd (fun s => s.getReg rs1 &&& BitVec.ofInt 32 imm)

/-- R207 to R209 (decision D10 of the spec for funct7): the immediate shifts as products and floors. -/
def Obligations.ImmediateShiftResults : Prop :=
  DecodesTo 0xFE00707F#32 0x00001013#32 (fun w => .slli (rdOf w) (rs1Of w) (shamtOf w)) ∧
  DecodesTo 0xFE00707F#32 0x00005013#32 (fun w => .srli (rdOf w) (rs1Of w) (shamtOf w)) ∧
  DecodesTo 0xFE00707F#32 0x40005013#32 (fun w => .srai (rdOf w) (rs1Of w) (shamtOf w)) ∧
  ∀ (rd rs1 : Reg) (shamt : Fin 32),
    Computes (.slli rd rs1 shamt) rd (fun s => BitVec.ofNat 32 ((s.getReg rs1).toNat * 2 ^ shamt.val)) ∧
    Computes (.srli rd rs1 shamt) rd (fun s => BitVec.ofNat 32 ((s.getReg rs1).toNat / 2 ^ shamt.val)) ∧
    Computes (.srai rd rs1 shamt) rd (fun s => BitVec.ofInt 32 ((s.getReg rs1).toInt / 2 ^ shamt.val))

/-- R221, R222, R224, R225, R226, R229, R230: the register ALU instructions that do not shift. -/
def Obligations.RegisterAluResults : Prop :=
  (DecodesTo 0xFE00707F#32 0x00000033#32 (fun w => .add (rdOf w) (rs1Of w) (rs2Of w)) ∧
    DecodesTo 0xFE00707F#32 0x40000033#32 (fun w => .sub (rdOf w) (rs1Of w) (rs2Of w)) ∧
    DecodesTo 0xFE00707F#32 0x00002033#32 (fun w => .slt (rdOf w) (rs1Of w) (rs2Of w)) ∧
    DecodesTo 0xFE00707F#32 0x00003033#32 (fun w => .sltu (rdOf w) (rs1Of w) (rs2Of w)) ∧
    DecodesTo 0xFE00707F#32 0x00004033#32 (fun w => .xor (rdOf w) (rs1Of w) (rs2Of w)) ∧
    DecodesTo 0xFE00707F#32 0x00006033#32 (fun w => .or (rdOf w) (rs1Of w) (rs2Of w)) ∧
    DecodesTo 0xFE00707F#32 0x00007033#32 (fun w => .and (rdOf w) (rs1Of w) (rs2Of w))) ∧
  ∀ rd rs1 rs2 : Reg,
    Computes (.add rd rs1 rs2) rd (fun s => BitVec.ofNat 32 ((s.getReg rs1).toNat + (s.getReg rs2).toNat)) ∧
    Computes (.sub rd rs1 rs2) rd (fun s => BitVec.ofInt 32 ((s.getReg rs1).toNat - (s.getReg rs2).toNat)) ∧
    Computes (.slt rd rs1 rs2) rd (fun s => if (s.getReg rs1).toInt < (s.getReg rs2).toInt then 1#32 else 0#32) ∧
    Computes (.sltu rd rs1 rs2) rd (fun s => if (s.getReg rs1).toNat < (s.getReg rs2).toNat then 1#32 else 0#32) ∧
    Computes (.xor rd rs1 rs2) rd (fun s => s.getReg rs1 ^^^ s.getReg rs2) ∧
    Computes (.or rd rs1 rs2) rd (fun s => s.getReg rs1 ||| s.getReg rs2) ∧
    Computes (.and rd rs1 rs2) rd (fun s => s.getReg rs1 &&& s.getReg rs2)

/-- R223, R227, R228 (decision D9 of the spec: the amount is `x[rs2][4:0]`): the register shifts as products and
floors. -/
def Obligations.RegisterShiftResults : Prop :=
  DecodesTo 0xFE00707F#32 0x00001033#32 (fun w => .sll (rdOf w) (rs1Of w) (rs2Of w)) ∧
  DecodesTo 0xFE00707F#32 0x00005033#32 (fun w => .srl (rdOf w) (rs1Of w) (rs2Of w)) ∧
  DecodesTo 0xFE00707F#32 0x40005033#32 (fun w => .sra (rdOf w) (rs1Of w) (rs2Of w)) ∧
  ∀ rd rs1 rs2 : Reg,
    Computes (.sll rd rs1 rs2) rd
      (fun s => BitVec.ofNat 32 ((s.getReg rs1).toNat * 2 ^ ((s.getReg rs2).toNat % 32))) ∧
    Computes (.srl rd rs1 rs2) rd
      (fun s => BitVec.ofNat 32 ((s.getReg rs1).toNat / 2 ^ ((s.getReg rs2).toNat % 32))) ∧
    Computes (.sra rd rs1 rs2) rd
      (fun s => BitVec.ofInt 32 ((s.getReg rs1).toInt / 2 ^ ((s.getReg rs2).toNat % 32)))

/-- R241: `mul`, the low 32 bits of the product, the same for signed and unsigned readings. -/
def Obligations.MulIsTheLowWord : Prop :=
  DecodesTo 0xFE00707F#32 0x02000033#32 (fun w => .mul (rdOf w) (rs1Of w) (rs2Of w)) ∧
  ∀ rd rs1 rs2 : Reg,
    Computes (.mul rd rs1 rs2) rd (fun s => BitVec.ofNat 32 ((s.getReg rs1).toNat * (s.getReg rs2).toNat)) ∧
    Computes (.mul rd rs1 rs2) rd (fun s => BitVec.ofInt 32 ((s.getReg rs1).toInt * (s.getReg rs2).toInt))

/-- R242 to R245 (decisions D3, D4 of the spec): division and remainder, by zero and at overflow too; never a fault. -/
def Obligations.DivisionResults : Prop :=
  (DecodesTo 0xFE00707F#32 0x02004033#32 (fun w => .div (rdOf w) (rs1Of w) (rs2Of w)) ∧
    DecodesTo 0xFE00707F#32 0x02005033#32 (fun w => .divu (rdOf w) (rs1Of w) (rs2Of w)) ∧
    DecodesTo 0xFE00707F#32 0x02006033#32 (fun w => .rem (rdOf w) (rs1Of w) (rs2Of w)) ∧
    DecodesTo 0xFE00707F#32 0x02007033#32 (fun w => .remu (rdOf w) (rs1Of w) (rs2Of w))) ∧
  ∀ rd rs1 rs2 : Reg,
    Computes (.div rd rs1 rs2) rd (fun s =>
      if (s.getReg rs2).toInt = 0 then 0xFFFFFFFF#32
      else if (s.getReg rs1).toInt = -2 ^ 31 ∧ (s.getReg rs2).toInt = -1 then 0x80000000#32
      else BitVec.ofInt 32 ((s.getReg rs1).toInt.tdiv (s.getReg rs2).toInt)) ∧
    Computes (.divu rd rs1 rs2) rd (fun s =>
      if (s.getReg rs2).toNat = 0 then 0xFFFFFFFF#32
      else BitVec.ofNat 32 ((s.getReg rs1).toNat / (s.getReg rs2).toNat)) ∧
    Computes (.rem rd rs1 rs2) rd (fun s =>
      if (s.getReg rs2).toInt = 0 then s.getReg rs1
      else if (s.getReg rs1).toInt = -2 ^ 31 ∧ (s.getReg rs2).toInt = -1 then 0#32
      else BitVec.ofInt 32
        ((s.getReg rs1).toInt - (s.getReg rs2).toInt * (s.getReg rs1).toInt.tdiv (s.getReg rs2).toInt)) ∧
    Computes (.remu rd rs1 rs2) rd (fun s =>
      if (s.getReg rs2).toNat = 0 then s.getReg rs1
      else BitVec.ofNat 32 ((s.getReg rs1).toNat % (s.getReg rs2).toNat))

/-- R240 (a) (decision D3 of the spec), as a relation of the values the four instructions compute: without overflow,
`a = b * div + rem`, the remainder is smaller than the divisor and has the dividend's sign or is zero; likewise
unsigned. -/
def Obligations.QuotientAndRemainderFitTogether : Prop :=
  ∀ a b : Word, b ≠ 0 →
    (¬ (a.toInt = -2 ^ 31 ∧ b.toInt = -1) →
      a.toInt = b.toInt * (divSigned a b).toInt + (remSigned a b).toInt ∧
      (remSigned a b).toInt.natAbs < b.toInt.natAbs ∧
      (0 < (remSigned a b).toInt → 0 < a.toInt) ∧ ((remSigned a b).toInt < 0 → a.toInt < 0)) ∧
    a.toNat = b.toNat * (divUnsigned a b).toNat + (remUnsigned a b).toNat ∧ (remUnsigned a b).toNat < b.toNat

/-- R251, R300 (decision D12 of the spec): `ecall` in vector mode links in `ECALL_LINK` and goes to `TRAP_VECTOR`;
nothing else is saved or changed. -/
def Obligations.EcallEntersTheTrapVector : Prop :=
  decode 0x00000073#32 = .instr .ecall ∧
  ∀ s : State, s.cfg.ecallMode = .vector → ∃ t : State, exec .ecall s = .next t ∧
    RegWritten s t s.cfg.ecallLink (BitVec.ofNat 32 (s.pc.toNat + 4)) ∧ SameMem s t ∧
    Committed s t .ecall s.cfg.trapVector (runUnlessBudget s)

/-- R251, R140 (decisions D12, D13 of the spec): `ecall` in halt mode commits, changing no register, and ends the run,
whatever the budget. -/
def Obligations.EcallInHaltModeEndsTheRun : Prop :=
  ∀ s : State, s.cfg.ecallMode = .halt → ∃ t : State, exec .ecall s = .next t ∧ SameRegs s t ∧ SameMem s t ∧
    Committed s t .ecall (s.pc + 4#32) (.halted .environmentCall)

/-- R252, R301 (decision D13 of the spec): `ebreak` commits, changing no register and no byte, and ends the run, whatever
the budget. -/
def Obligations.EbreakCommitsAndHalts : Prop :=
  decode 0x00100073#32 = .instr .ebreak ∧
  ∀ s : State, ∃ t : State, exec .ebreak s = .next t ∧ SameRegs s t ∧ SameMem s t ∧
    Committed s t .ebreak (s.pc + 4#32) (.halted .breakpoint)

/-- R302: the return from the trap of `ecall` is `jalr x0, ECALL_LINK, 0`. From any later state in which the link register
still holds what the trap entry left, it goes to the instruction after the `ecall` and restores nothing else. With
`ECALL_LINK = 0` the return address was discarded (R251), and the jump goes to address 0. -/
def Obligations.JalrReturnsFromTheTrap : Prop :=
  ∀ s t u : State, s.cfg.ecallMode = .vector → exec .ecall s = .next t →
    u.getReg s.cfg.ecallLink = t.getReg s.cfg.ecallLink →
    ∃ v : State, exec (.jalr 0 s.cfg.ecallLink 0) u = .next v ∧
      v.pc = (if s.cfg.ecallLink = 0 then 0#32 else BitVec.ofNat 32 (s.pc.toNat + 4)) ∧
      SameRegs u v ∧ SameMem u v

/-- R64, R254: the fences are no-ops, whatever their other bits. -/
def Obligations.FencesAreNoOps : Prop :=
  DecodesTo 0x0000707F#32 0x0000000F#32 (fun _ => .fence) ∧
  DecodesTo 0x0000707F#32 0x0000100F#32 (fun _ => .fenceI) ∧
  OnlyGoesTo .fence (fun s => s.pc + 4#32) ∧ OnlyGoesTo .fenceI (fun s => s.pc + 4#32)

/-- R255 to R261, R294 (decision D16 of the spec): each CSR instruction decodes with its operands and, executed, is fault
entry with `UnsupportedInstruction` and its mnemonic, for every operand value. -/
def Obligations.CsrInstructionsAreUnsupported : Prop :=
  (DecodesTo 0x0000707F#32 0x00001073#32 (fun w => .csrrw (rdOf w) (csrOf w) (rs1Of w)) ∧
    DecodesTo 0x0000707F#32 0x00002073#32 (fun w => .csrrs (rdOf w) (csrOf w) (rs1Of w)) ∧
    DecodesTo 0x0000707F#32 0x00003073#32 (fun w => .csrrc (rdOf w) (csrOf w) (rs1Of w)) ∧
    DecodesTo 0x0000707F#32 0x00005073#32 (fun w => .csrrwi (rdOf w) (csrOf w) (uimmOf w)) ∧
    DecodesTo 0x0000707F#32 0x00006073#32 (fun w => .csrrsi (rdOf w) (csrOf w) (uimmOf w)) ∧
    DecodesTo 0x0000707F#32 0x00007073#32 (fun w => .csrrci (rdOf w) (csrOf w) (uimmOf w))) ∧
  ∀ (rd rs1 : Reg) (csr : BitVec 12) (uimm : Fin 32) (s : State),
    exec (.csrrw rd csr rs1) s = .next (faulted s s.fetchWord (.unsupportedInstruction .csrrw)) ∧
    exec (.csrrs rd csr rs1) s = .next (faulted s s.fetchWord (.unsupportedInstruction .csrrs)) ∧
    exec (.csrrc rd csr rs1) s = .next (faulted s s.fetchWord (.unsupportedInstruction .csrrc)) ∧
    exec (.csrrwi rd csr uimm) s = .next (faulted s s.fetchWord (.unsupportedInstruction .csrrwi)) ∧
    exec (.csrrsi rd csr uimm) s = .next (faulted s s.fetchWord (.unsupportedInstruction .csrrsi)) ∧
    exec (.csrrci rd csr uimm) s = .next (faulted s s.fetchWord (.unsupportedInstruction .csrrci))
end

