-- ==== Sys2Proof/Laws/Decode.lean ====
section
/-! SUPPORT. Fields of words as numbers, the fields of encoded words, and a row's mask and match as opcode, funct3 and
funct7 (30_encoding.md R81 to R98, R108). -/

namespace Sys2Proof

/-! ### Bits as numbers -/

theorem toNat_append_eq {n m : Nat} (a : BitVec n) (b : BitVec m) : (a ++ b).toNat = a.toNat * 2 ^ m + b.toNat := by
  rw [BitVec.toNat_append, ← Nat.shiftLeft_add_eq_or_of_lt b.isLt, Nat.shiftLeft_eq]

theorem extract_toNat (w : Word) (lo hi : Nat) :
    (extract w lo hi).toNat = w.toNat / 2 ^ lo % 2 ^ (hi - lo + 1) := by
  rw [extract, BitVec.extractLsb'_toNat, Nat.shiftRight_eq_div_pow]

theorem regOf_val (b : BitVec 5) : (regOf b).val = b.toNat := rfl

theorem regBits_toNat (r : Reg) : (regBits r).toNat = r.val := by
  rw [regBits, BitVec.toNat_ofNat]
  exact Nat.mod_eq_of_lt r.isLt

theorem opcodeOf_toNat (w : Word) : (opcodeOf w).toNat = w.toNat % 128 := by
  have h : (opcodeOf w).toNat = w.toNat / 2 ^ 0 % 2 ^ (6 - 0 + 1) := extract_toNat w 0 6
  simpa using h
theorem rdOf_val (w : Word) : (rdOf w).val = w.toNat / 128 % 32 := extract_toNat w 7 11
theorem funct3Of_toNat (w : Word) : (funct3Of w).toNat = w.toNat / 4096 % 8 := extract_toNat w 12 14
theorem rs1Of_val (w : Word) : (rs1Of w).val = w.toNat / 32768 % 32 := extract_toNat w 15 19
theorem rs2Of_val (w : Word) : (rs2Of w).val = w.toNat / 1048576 % 32 := extract_toNat w 20 24
theorem funct7Of_toNat (w : Word) : (funct7Of w).toNat = w.toNat / 33554432 % 128 := extract_toNat w 25 31
theorem shamtOf_val (w : Word) : (shamtOf w).val = w.toNat / 1048576 % 32 := extract_toNat w 20 24
theorem csrOf_toNat (w : Word) : (csrOf w).toNat = w.toNat / 1048576 % 4096 := extract_toNat w 20 31
theorem uimmOf_val (w : Word) : (uimmOf w).val = w.toNat / 32768 % 32 := extract_toNat w 15 19
theorem imm20Of_toNat (w : Word) : (imm20Of w).toNat = w.toNat / 4096 % 1048576 := extract_toNat w 12 31

/-! ### The immediates as bit patterns (R89 to R93) -/

/-- The 12 bits of an I-immediate. -/
def immIBits (w : Word) : BitVec 12 := extract w 20 31
/-- The 12 bits of an S-immediate. -/
def immSBits (w : Word) : BitVec 12 := extract w 25 31 ++ extract w 7 11
/-- The 13 bits of a B-immediate. -/
def immBBits (w : Word) : BitVec 13 := extract w 31 31 ++ extract w 7 7 ++ extract w 25 30 ++ extract w 8 11 ++ 0#1
/-- The 21 bits of a J-immediate. -/
def immJBits (w : Word) : BitVec 21 := extract w 31 31 ++ extract w 12 19 ++ extract w 20 20 ++ extract w 21 30 ++ 0#1

theorem immI_eq (w : Word) : immI w = (immIBits w).toInt := rfl
theorem immS_eq (w : Word) : immS w = (immSBits w).toInt := rfl
theorem immB_eq (w : Word) : immB w = (immBBits w).toInt := rfl
theorem immJ_eq (w : Word) : immJ w = (immJBits w).toInt := rfl

theorem immIBits_toNat (w : Word) : (immIBits w).toNat = w.toNat / 1048576 % 4096 := extract_toNat w 20 31

theorem immSBits_toNat (w : Word) : (immSBits w).toNat = w.toNat / 33554432 % 128 * 32 + w.toNat / 128 % 32 := by
  have h : (immSBits w).toNat = (extract w 25 31).toNat * 2 ^ 5 + (extract w 7 11).toNat := toNat_append_eq _ _
  rw [h, extract_toNat, extract_toNat]
  norm_num

theorem immBBits_toNat (w : Word) :
    (immBBits w).toNat = w.toNat / 2147483648 % 2 * 4096 + w.toNat / 128 % 2 * 2048 + w.toNat / 33554432 % 64 * 32 +
      w.toNat / 256 % 16 * 2 := by
  have h : (immBBits w).toNat =
      ((((extract w 31 31).toNat * 2 ^ 1 + (extract w 7 7).toNat) * 2 ^ 6 + (extract w 25 30).toNat) * 2 ^ 4 +
        (extract w 8 11).toNat) * 2 ^ 1 + (0#1).toNat := by
    rw [← toNat_append_eq, ← toNat_append_eq, ← toNat_append_eq, ← toNat_append_eq]
    rfl
  rw [h, extract_toNat, extract_toNat, extract_toNat, extract_toNat]
  simp only [Nat.reducePow, Nat.reduceSub, Nat.reduceAdd, BitVec.toNat_ofNat]
  omega

theorem immJBits_toNat (w : Word) :
    (immJBits w).toNat = w.toNat / 2147483648 % 2 * 1048576 + w.toNat / 4096 % 256 * 4096 + w.toNat / 1048576 % 2 * 2048 +
      w.toNat / 2097152 % 1024 * 2 := by
  have h : (immJBits w).toNat =
      ((((extract w 31 31).toNat * 2 ^ 8 + (extract w 12 19).toNat) * 2 ^ 1 + (extract w 20 20).toNat) * 2 ^ 10 +
        (extract w 21 30).toNat) * 2 ^ 1 + (0#1).toNat := by
    rw [← toNat_append_eq, ← toNat_append_eq, ← toNat_append_eq, ← toNat_append_eq]
    rfl
  rw [h, extract_toNat, extract_toNat, extract_toNat, extract_toNat]
  simp only [Nat.reducePow, Nat.reduceSub, Nat.reduceAdd, BitVec.toNat_ofNat]
  omega

/-! ### Encoded words as numbers (R83 to R88, R108) -/

theorem encodeR_toNat (f7 : BitVec 7) (rs2 rs1 : Reg) (f3 : BitVec 3) (rd : Reg) (c : OpcodeClass) :
    (encodeR f7 rs2 rs1 f3 rd c).toNat = f7.toNat * 33554432 + rs2.val * 1048576 + rs1.val * 32768 + f3.toNat * 4096 +
      rd.val * 128 + c.code.toNat := by
  have h : (encodeR f7 rs2 rs1 f3 rd c).toNat =
      ((((f7.toNat * 2 ^ 5 + (regBits rs2).toNat) * 2 ^ 5 + (regBits rs1).toNat) * 2 ^ 3 + f3.toNat) * 2 ^ 5 +
        (regBits rd).toNat) * 2 ^ 7 + c.code.toNat := by
    rw [← toNat_append_eq, ← toNat_append_eq, ← toNat_append_eq, ← toNat_append_eq, ← toNat_append_eq]
    rfl
  rw [h, regBits_toNat, regBits_toNat, regBits_toNat]
  omega

theorem encodeI_toNat (imm : BitVec 12) (rs1 : Reg) (f3 : BitVec 3) (rd : Reg) (c : OpcodeClass) :
    (encodeI imm rs1 f3 rd c).toNat = imm.toNat * 1048576 + rs1.val * 32768 + f3.toNat * 4096 + rd.val * 128 +
      c.code.toNat := by
  have h : (encodeI imm rs1 f3 rd c).toNat =
      (((imm.toNat * 2 ^ 5 + (regBits rs1).toNat) * 2 ^ 3 + f3.toNat) * 2 ^ 5 + (regBits rd).toNat) * 2 ^ 7 +
        c.code.toNat := by
    rw [← toNat_append_eq, ← toNat_append_eq, ← toNat_append_eq, ← toNat_append_eq]
    rfl
  rw [h, regBits_toNat, regBits_toNat]
  omega

theorem encodeS_toNat (imm : BitVec 12) (rs2 rs1 : Reg) (f3 : BitVec 3) (c : OpcodeClass) :
    (encodeS imm rs2 rs1 f3 c).toNat = imm.toNat / 32 * 33554432 + rs2.val * 1048576 + rs1.val * 32768 +
      f3.toNat * 4096 + imm.toNat % 32 * 128 + c.code.toNat := by
  have h : (encodeS imm rs2 rs1 f3 c).toNat =
      (((((imm.extractLsb' 5 7).toNat * 2 ^ 5 + (regBits rs2).toNat) * 2 ^ 5 + (regBits rs1).toNat) * 2 ^ 3 +
        f3.toNat) * 2 ^ 5 + (imm.extractLsb' 0 5).toNat) * 2 ^ 7 + c.code.toNat := by
    rw [← toNat_append_eq, ← toNat_append_eq, ← toNat_append_eq, ← toNat_append_eq, ← toNat_append_eq]
    rfl
  have hi := imm.isLt
  rw [h, regBits_toNat, regBits_toNat, BitVec.extractLsb'_toNat, BitVec.extractLsb'_toNat, Nat.shiftRight_eq_div_pow,
    Nat.shiftRight_eq_div_pow]
  omega

theorem encodeB_toNat (imm : BitVec 13) (rs2 rs1 : Reg) (f3 : BitVec 3) (c : OpcodeClass) :
    (encodeB imm rs2 rs1 f3 c).toNat = imm.toNat / 4096 * 2147483648 + imm.toNat / 32 % 64 * 33554432 +
      rs2.val * 1048576 + rs1.val * 32768 + f3.toNat * 4096 + imm.toNat / 2 % 16 * 256 + imm.toNat / 2048 % 2 * 128 +
      c.code.toNat := by
  have h : (encodeB imm rs2 rs1 f3 c).toNat =
      ((((((((imm.extractLsb' 12 1).toNat * 2 ^ 6 + (imm.extractLsb' 5 6).toNat) * 2 ^ 5 + (regBits rs2).toNat) * 2 ^ 5 +
        (regBits rs1).toNat) * 2 ^ 3 + f3.toNat) * 2 ^ 4 + (imm.extractLsb' 1 4).toNat) * 2 ^ 1 +
        (imm.extractLsb' 11 1).toNat)) * 2 ^ 7 + c.code.toNat := by
    rw [← toNat_append_eq, ← toNat_append_eq, ← toNat_append_eq, ← toNat_append_eq, ← toNat_append_eq,
      ← toNat_append_eq, ← toNat_append_eq]
    rfl
  have hi := imm.isLt
  rw [h, regBits_toNat, regBits_toNat, BitVec.extractLsb'_toNat, BitVec.extractLsb'_toNat, BitVec.extractLsb'_toNat,
    BitVec.extractLsb'_toNat, Nat.shiftRight_eq_div_pow, Nat.shiftRight_eq_div_pow, Nat.shiftRight_eq_div_pow,
    Nat.shiftRight_eq_div_pow]
  omega

theorem encodeU_toNat (imm20 : BitVec 20) (rd : Reg) (c : OpcodeClass) :
    (encodeU imm20 rd c).toNat = imm20.toNat * 4096 + rd.val * 128 + c.code.toNat := by
  have h : (encodeU imm20 rd c).toNat = (imm20.toNat * 2 ^ 5 + (regBits rd).toNat) * 2 ^ 7 + c.code.toNat := by
    rw [← toNat_append_eq, ← toNat_append_eq]
    rfl
  rw [h, regBits_toNat]
  omega

theorem encodeJ_toNat (imm : BitVec 21) (rd : Reg) (c : OpcodeClass) :
    (encodeJ imm rd c).toNat = imm.toNat / 1048576 * 2147483648 + imm.toNat / 2 % 1024 * 2097152 +
      imm.toNat / 2048 % 2 * 1048576 + imm.toNat / 4096 % 256 * 4096 + rd.val * 128 + c.code.toNat := by
  have h : (encodeJ imm rd c).toNat =
      (((((imm.extractLsb' 20 1).toNat * 2 ^ 10 + (imm.extractLsb' 1 10).toNat) * 2 ^ 1 +
        (imm.extractLsb' 11 1).toNat) * 2 ^ 8 + (imm.extractLsb' 12 8).toNat) * 2 ^ 5 + (regBits rd).toNat) * 2 ^ 7 +
        c.code.toNat := by
    rw [← toNat_append_eq, ← toNat_append_eq, ← toNat_append_eq, ← toNat_append_eq, ← toNat_append_eq]
    rfl
  have hi := imm.isLt
  rw [h, regBits_toNat, BitVec.extractLsb'_toNat, BitVec.extractLsb'_toNat, BitVec.extractLsb'_toNat,
    BitVec.extractLsb'_toNat, Nat.shiftRight_eq_div_pow, Nat.shiftRight_eq_div_pow, Nat.shiftRight_eq_div_pow,
    Nat.shiftRight_eq_div_pow]
  simp only [Nat.reducePow]
  omega

/-! ### Signed immediates of a given width -/

/-- A value in the range of a 12-bit signed number survives its encoding (R89, R90). -/
theorem toInt_ofInt_12 (imm : Int) (h : immIOk imm = true) : (BitVec.ofInt 12 imm).toInt = imm := by
  simp only [immIOk, Bool.and_eq_true, decide_eq_true_eq] at h
  rw [BitVec.toInt_ofInt, Int.bmod_def]
  omega

/-- The same for 13 bits (R91). -/
theorem toInt_ofInt_13 (imm : Int) (h : immBOk imm = true) : (BitVec.ofInt 13 imm).toInt = imm := by
  simp only [immBOk, Bool.and_eq_true, decide_eq_true_eq] at h
  rw [BitVec.toInt_ofInt, Int.bmod_def]
  omega

/-- The same for 21 bits (R93). -/
theorem toInt_ofInt_21 (imm : Int) (h : immJOk imm = true) : (BitVec.ofInt 21 imm).toInt = imm := by
  simp only [immJOk, Bool.and_eq_true, decide_eq_true_eq] at h
  rw [BitVec.toInt_ofInt, Int.bmod_def]
  omega

/-! ### Masks (R96): what `w AND mask = match` says of the fields -/

/-- The opcode and funct3 of a word, from the mask of a row without funct7. -/
theorem fields_of_mask_707F (w : Word) (v : Word) (h : w &&& 0x0000707F#32 = v) :
    opcodeOf w = v.extractLsb' 0 7 ∧ funct3Of w = v.extractLsb' 12 3 := by
  subst h
  constructor
  · apply BitVec.eq_of_getLsbD_eq
    intro k hk
    simp only [opcodeOf, extract, BitVec.getLsbD_extractLsb', BitVec.getLsbD_and]
    interval_cases k <;> simp
  · apply BitVec.eq_of_getLsbD_eq
    intro k hk
    simp only [funct3Of, extract, BitVec.getLsbD_extractLsb', BitVec.getLsbD_and]
    interval_cases k <;> simp

/-- The opcode of a word, from the mask of a row that fixes it alone. -/
theorem fields_of_mask_7F (w : Word) (v : Word) (h : w &&& 0x0000007F#32 = v) : opcodeOf w = v.extractLsb' 0 7 := by
  subst h
  apply BitVec.eq_of_getLsbD_eq
  intro k hk
  simp only [opcodeOf, extract, BitVec.getLsbD_extractLsb', BitVec.getLsbD_and]
  interval_cases k <;> simp

/-- The opcode, funct3 and funct7 of a word, from the mask of a row with funct7. -/
theorem fields_of_mask_FE00707F (w : Word) (v : Word) (h : w &&& 0xFE00707F#32 = v) :
    opcodeOf w = v.extractLsb' 0 7 ∧ funct3Of w = v.extractLsb' 12 3 ∧ funct7Of w = v.extractLsb' 25 7 := by
  subst h
  refine ⟨?_, ?_, ?_⟩
  · apply BitVec.eq_of_getLsbD_eq
    intro k hk
    simp only [opcodeOf, extract, BitVec.getLsbD_extractLsb', BitVec.getLsbD_and]
    interval_cases k <;> simp
  · apply BitVec.eq_of_getLsbD_eq
    intro k hk
    simp only [funct3Of, extract, BitVec.getLsbD_extractLsb', BitVec.getLsbD_and]
    interval_cases k <;> simp
  · apply BitVec.eq_of_getLsbD_eq
    intro k hk
    simp only [funct7Of, extract, BitVec.getLsbD_extractLsb', BitVec.getLsbD_and]
    interval_cases k <;> simp

/-! ### Masks (R96): a word cut by a row's mask, as its fields -/

theorem and_mask_7F (w : Word) : w &&& 0x0000007F#32 = (0#25 ++ opcodeOf w : BitVec 32) := by
  apply BitVec.eq_of_getLsbD_eq
  intro k hk
  simp only [opcodeOf, extract, BitVec.getLsbD_append, BitVec.getLsbD_extractLsb', BitVec.getLsbD_and]
  interval_cases k <;> simp

theorem and_mask_707F (w : Word) :
    w &&& 0x0000707F#32 = (0#17 ++ funct3Of w ++ 0#5 ++ opcodeOf w : BitVec 32) := by
  apply BitVec.eq_of_getLsbD_eq
  intro k hk
  simp only [opcodeOf, funct3Of, extract, BitVec.getLsbD_append, BitVec.getLsbD_extractLsb', BitVec.getLsbD_and]
  interval_cases k <;> simp

theorem and_mask_FE00707F (w : Word) :
    w &&& 0xFE00707F#32 = (funct7Of w ++ 0#10 ++ funct3Of w ++ 0#5 ++ opcodeOf w : BitVec 32) := by
  apply BitVec.eq_of_getLsbD_eq
  intro k hk
  simp only [opcodeOf, funct3Of, funct7Of, extract, BitVec.getLsbD_append, BitVec.getLsbD_extractLsb',
    BitVec.getLsbD_and]
  interval_cases k <;> simp

/-! ### The decoder by opcode class -/

/-- A word whose opcode is known decodes as its class's dispatch table says (R96). -/
theorem decode_of_class (w : Word) (c : OpcodeClass) (h : opcodeOf w = c.code) :
    decode w = match decodeClass c w with
      | some i => .instr i
      | none => .unknown := by
  unfold decode
  rw [h]
  cases c <;> rfl

/-- A word whose opcode is not in the map decodes to `UnknownOpcode` (R101). -/
theorem decode_of_no_class (w : Word) (h : opcodeClass (opcodeOf w) = none) :
    decode w = .unknownOpcode (opcodeOf w) := by
  unfold decode
  rw [h]

theorem opcodeClass_code (c : OpcodeClass) : opcodeClass c.code = some c := by
  cases c <;> rfl

theorem code_of_opcodeClass (op : BitVec 7) (c : OpcodeClass) (h : opcodeClass op = some c) : op = c.code := by
  unfold opcodeClass at h
  split at h <;> first | (simp only [Option.some.injEq] at h; subst h; rfl) | simp at h

/-- A word of a known class whose dispatch table has a row for it decodes to that row. -/
theorem decode_of_some (w : Word) (c : OpcodeClass) (i : Instr) (h : opcodeOf w = c.code)
    (hd : decodeClass c w = some i) : decode w = .instr i := by
  rw [decode_of_class w c h, hd]

/-- Every opcode in the map, as its class. -/
theorem decode_eq_instr (w : Word) (i : Instr) (h : decode w = .instr i) :
    ∃ c : OpcodeClass, opcodeOf w = c.code ∧ decodeClass c w = some i := by
  unfold decode at h
  split at h
  · cases h
  · rename_i c hc
    split at h
    · cases h
      exact ⟨c, code_of_opcodeClass _ _ hc, ‹_›⟩
    · cases h

end Sys2Proof
end

