-- ==== Sys2Proof/Laws/Encode.lean ====
section
/-! SUPPORT. The fields of encoded words, and the word that the fields of a word encode to (30_encoding.md R83 to R94, R108). -/

namespace Sys2Proof

/-! ### What each field of an encoded word is -/

theorem code_lt (c : OpcodeClass) : c.code.toNat < 128 := c.code.isLt

theorem opcodeOf_encodeR (f7 : BitVec 7) (rs2 rs1 : Reg) (f3 : BitVec 3) (rd : Reg) (c : OpcodeClass) :
    opcodeOf (encodeR f7 rs2 rs1 f3 rd c) = c.code := by
  have hb0 := f7.isLt
  have hb1 := rs2.isLt
  have hb2 := rs1.isLt
  have hb3 := f3.isLt
  have hb4 := rd.isLt
  have hc := code_lt c
  apply BitVec.eq_of_toNat_eq
  rw [opcodeOf_toNat, encodeR_toNat]
  omega

theorem funct3Of_encodeR (f7 : BitVec 7) (rs2 rs1 : Reg) (f3 : BitVec 3) (rd : Reg) (c : OpcodeClass) :
    funct3Of (encodeR f7 rs2 rs1 f3 rd c) = f3 := by
  have hb0 := f7.isLt
  have hb1 := rs2.isLt
  have hb2 := rs1.isLt
  have hb3 := f3.isLt
  have hb4 := rd.isLt
  have hc := code_lt c
  apply BitVec.eq_of_toNat_eq
  rw [funct3Of_toNat, encodeR_toNat]
  omega

theorem funct7Of_encodeR (f7 : BitVec 7) (rs2 rs1 : Reg) (f3 : BitVec 3) (rd : Reg) (c : OpcodeClass) :
    funct7Of (encodeR f7 rs2 rs1 f3 rd c) = f7 := by
  have hb0 := f7.isLt
  have hb1 := rs2.isLt
  have hb2 := rs1.isLt
  have hb3 := f3.isLt
  have hb4 := rd.isLt
  have hc := code_lt c
  apply BitVec.eq_of_toNat_eq
  rw [funct7Of_toNat, encodeR_toNat]
  omega

theorem rs2Of_encodeR (f7 : BitVec 7) (rs2 rs1 : Reg) (f3 : BitVec 3) (rd : Reg) (c : OpcodeClass) :
    rs2Of (encodeR f7 rs2 rs1 f3 rd c) = rs2 := by
  have hb0 := f7.isLt
  have hb1 := rs2.isLt
  have hb2 := rs1.isLt
  have hb3 := f3.isLt
  have hb4 := rd.isLt
  have hc := code_lt c
  apply Fin.ext
  rw [rs2Of_val, encodeR_toNat]
  omega

theorem rs1Of_encodeR (f7 : BitVec 7) (rs2 rs1 : Reg) (f3 : BitVec 3) (rd : Reg) (c : OpcodeClass) :
    rs1Of (encodeR f7 rs2 rs1 f3 rd c) = rs1 := by
  have hb0 := f7.isLt
  have hb1 := rs2.isLt
  have hb2 := rs1.isLt
  have hb3 := f3.isLt
  have hb4 := rd.isLt
  have hc := code_lt c
  apply Fin.ext
  rw [rs1Of_val, encodeR_toNat]
  omega

theorem rdOf_encodeR (f7 : BitVec 7) (rs2 rs1 : Reg) (f3 : BitVec 3) (rd : Reg) (c : OpcodeClass) :
    rdOf (encodeR f7 rs2 rs1 f3 rd c) = rd := by
  have hb0 := f7.isLt
  have hb1 := rs2.isLt
  have hb2 := rs1.isLt
  have hb3 := f3.isLt
  have hb4 := rd.isLt
  have hc := code_lt c
  apply Fin.ext
  rw [rdOf_val, encodeR_toNat]
  omega

theorem shamtOf_encodeR (f7 : BitVec 7) (rs2 rs1 : Reg) (f3 : BitVec 3) (rd : Reg) (c : OpcodeClass) :
    shamtOf (encodeR f7 rs2 rs1 f3 rd c) = rs2 := by
  have hb0 := f7.isLt
  have hb1 := rs2.isLt
  have hb2 := rs1.isLt
  have hb3 := f3.isLt
  have hb4 := rd.isLt
  have hc := code_lt c
  apply Fin.ext
  rw [shamtOf_val, encodeR_toNat]
  omega

theorem opcodeOf_encodeI (imm : BitVec 12) (rs1 : Reg) (f3 : BitVec 3) (rd : Reg) (c : OpcodeClass) :
    opcodeOf (encodeI imm rs1 f3 rd c) = c.code := by
  have hb0 := imm.isLt
  have hb1 := rs1.isLt
  have hb2 := f3.isLt
  have hb3 := rd.isLt
  have hc := code_lt c
  apply BitVec.eq_of_toNat_eq
  rw [opcodeOf_toNat, encodeI_toNat]
  omega

theorem funct3Of_encodeI (imm : BitVec 12) (rs1 : Reg) (f3 : BitVec 3) (rd : Reg) (c : OpcodeClass) :
    funct3Of (encodeI imm rs1 f3 rd c) = f3 := by
  have hb0 := imm.isLt
  have hb1 := rs1.isLt
  have hb2 := f3.isLt
  have hb3 := rd.isLt
  have hc := code_lt c
  apply BitVec.eq_of_toNat_eq
  rw [funct3Of_toNat, encodeI_toNat]
  omega

theorem rs1Of_encodeI (imm : BitVec 12) (rs1 : Reg) (f3 : BitVec 3) (rd : Reg) (c : OpcodeClass) :
    rs1Of (encodeI imm rs1 f3 rd c) = rs1 := by
  have hb0 := imm.isLt
  have hb1 := rs1.isLt
  have hb2 := f3.isLt
  have hb3 := rd.isLt
  have hc := code_lt c
  apply Fin.ext
  rw [rs1Of_val, encodeI_toNat]
  omega

theorem rdOf_encodeI (imm : BitVec 12) (rs1 : Reg) (f3 : BitVec 3) (rd : Reg) (c : OpcodeClass) :
    rdOf (encodeI imm rs1 f3 rd c) = rd := by
  have hb0 := imm.isLt
  have hb1 := rs1.isLt
  have hb2 := f3.isLt
  have hb3 := rd.isLt
  have hc := code_lt c
  apply Fin.ext
  rw [rdOf_val, encodeI_toNat]
  omega

theorem uimmOf_encodeI (imm : BitVec 12) (rs1 : Reg) (f3 : BitVec 3) (rd : Reg) (c : OpcodeClass) :
    uimmOf (encodeI imm rs1 f3 rd c) = rs1 := by
  have hb0 := imm.isLt
  have hb1 := rs1.isLt
  have hb2 := f3.isLt
  have hb3 := rd.isLt
  have hc := code_lt c
  apply Fin.ext
  rw [uimmOf_val, encodeI_toNat]
  omega

theorem csrOf_encodeI (imm : BitVec 12) (rs1 : Reg) (f3 : BitVec 3) (rd : Reg) (c : OpcodeClass) :
    csrOf (encodeI imm rs1 f3 rd c) = imm := by
  have hb0 := imm.isLt
  have hb1 := rs1.isLt
  have hb2 := f3.isLt
  have hb3 := rd.isLt
  have hc := code_lt c
  apply BitVec.eq_of_toNat_eq
  rw [csrOf_toNat, encodeI_toNat]
  omega

theorem immIBits_encodeI (imm : BitVec 12) (rs1 : Reg) (f3 : BitVec 3) (rd : Reg) (c : OpcodeClass) :
    immIBits (encodeI imm rs1 f3 rd c) = imm := by
  have hb0 := imm.isLt
  have hb1 := rs1.isLt
  have hb2 := f3.isLt
  have hb3 := rd.isLt
  have hc := code_lt c
  apply BitVec.eq_of_toNat_eq
  rw [immIBits_toNat, encodeI_toNat]
  omega

theorem opcodeOf_encodeS (imm : BitVec 12) (rs2 rs1 : Reg) (f3 : BitVec 3) (c : OpcodeClass) :
    opcodeOf (encodeS imm rs2 rs1 f3 c) = c.code := by
  have hb0 := imm.isLt
  have hb1 := rs2.isLt
  have hb2 := rs1.isLt
  have hb3 := f3.isLt
  have hc := code_lt c
  apply BitVec.eq_of_toNat_eq
  rw [opcodeOf_toNat, encodeS_toNat]
  generalize hq0 : imm.toNat / 32 = q0
  generalize hq1 : imm.toNat % 32 = q1
  obtain ⟨hl0, hl1⟩ : q0 < 128 ∧ q1 < 32 := by omega
  clear hq0 hq1
  clear hb0
  omega

theorem funct3Of_encodeS (imm : BitVec 12) (rs2 rs1 : Reg) (f3 : BitVec 3) (c : OpcodeClass) :
    funct3Of (encodeS imm rs2 rs1 f3 c) = f3 := by
  have hb0 := imm.isLt
  have hb1 := rs2.isLt
  have hb2 := rs1.isLt
  have hb3 := f3.isLt
  have hc := code_lt c
  apply BitVec.eq_of_toNat_eq
  rw [funct3Of_toNat, encodeS_toNat]
  generalize hq0 : imm.toNat / 32 = q0
  generalize hq1 : imm.toNat % 32 = q1
  obtain ⟨hl0, hl1⟩ : q0 < 128 ∧ q1 < 32 := by omega
  clear hq0 hq1
  clear hb0
  omega

theorem rs1Of_encodeS (imm : BitVec 12) (rs2 rs1 : Reg) (f3 : BitVec 3) (c : OpcodeClass) :
    rs1Of (encodeS imm rs2 rs1 f3 c) = rs1 := by
  have hb0 := imm.isLt
  have hb1 := rs2.isLt
  have hb2 := rs1.isLt
  have hb3 := f3.isLt
  have hc := code_lt c
  apply Fin.ext
  rw [rs1Of_val, encodeS_toNat]
  generalize hq0 : imm.toNat / 32 = q0
  generalize hq1 : imm.toNat % 32 = q1
  obtain ⟨hl0, hl1⟩ : q0 < 128 ∧ q1 < 32 := by omega
  clear hq0 hq1
  clear hb0
  omega

theorem rs2Of_encodeS (imm : BitVec 12) (rs2 rs1 : Reg) (f3 : BitVec 3) (c : OpcodeClass) :
    rs2Of (encodeS imm rs2 rs1 f3 c) = rs2 := by
  have hb0 := imm.isLt
  have hb1 := rs2.isLt
  have hb2 := rs1.isLt
  have hb3 := f3.isLt
  have hc := code_lt c
  apply Fin.ext
  rw [rs2Of_val, encodeS_toNat]
  generalize hq0 : imm.toNat / 32 = q0
  generalize hq1 : imm.toNat % 32 = q1
  obtain ⟨hl0, hl1⟩ : q0 < 128 ∧ q1 < 32 := by omega
  clear hq0 hq1
  clear hb0
  omega

theorem immSBits_encodeS (imm : BitVec 12) (rs2 rs1 : Reg) (f3 : BitVec 3) (c : OpcodeClass) :
    immSBits (encodeS imm rs2 rs1 f3 c) = imm := by
  have hb0 := imm.isLt
  have hb1 := rs2.isLt
  have hb2 := rs1.isLt
  have hb3 := f3.isLt
  have hc := code_lt c
  apply BitVec.eq_of_toNat_eq
  rw [immSBits_toNat, encodeS_toNat]
  generalize hq0 : imm.toNat / 32 = q0
  generalize hq1 : imm.toNat % 32 = q1
  obtain ⟨hl0, hl1, hx⟩ : q0 < 128 ∧ q1 < 32 ∧ imm.toNat = 32 * q0 + q1 := by omega
  clear hq0 hq1
  rw [hx]
  clear hx hb0
  omega

theorem opcodeOf_encodeB (imm : BitVec 13) (rs2 rs1 : Reg) (f3 : BitVec 3) (c : OpcodeClass) :
    opcodeOf (encodeB imm rs2 rs1 f3 c) = c.code := by
  have hb0 := imm.isLt
  have hb1 := rs2.isLt
  have hb2 := rs1.isLt
  have hb3 := f3.isLt
  have hc := code_lt c
  apply BitVec.eq_of_toNat_eq
  rw [opcodeOf_toNat, encodeB_toNat]
  generalize hq0 : imm.toNat / 4096 = q0
  generalize hq1 : imm.toNat / 32 % 64 = q1
  generalize hq2 : imm.toNat / 2 % 16 = q2
  generalize hq3 : imm.toNat / 2048 % 2 = q3
  obtain ⟨hl0, hl1, hl2, hl3⟩ : q0 < 2 ∧ q1 < 64 ∧ q2 < 16 ∧ q3 < 2 := by omega
  clear hq0 hq1 hq2 hq3
  clear hb0
  omega

theorem funct3Of_encodeB (imm : BitVec 13) (rs2 rs1 : Reg) (f3 : BitVec 3) (c : OpcodeClass) :
    funct3Of (encodeB imm rs2 rs1 f3 c) = f3 := by
  have hb0 := imm.isLt
  have hb1 := rs2.isLt
  have hb2 := rs1.isLt
  have hb3 := f3.isLt
  have hc := code_lt c
  apply BitVec.eq_of_toNat_eq
  rw [funct3Of_toNat, encodeB_toNat]
  generalize hq0 : imm.toNat / 4096 = q0
  generalize hq1 : imm.toNat / 32 % 64 = q1
  generalize hq2 : imm.toNat / 2 % 16 = q2
  generalize hq3 : imm.toNat / 2048 % 2 = q3
  obtain ⟨hl0, hl1, hl2, hl3⟩ : q0 < 2 ∧ q1 < 64 ∧ q2 < 16 ∧ q3 < 2 := by omega
  clear hq0 hq1 hq2 hq3
  clear hb0
  omega

theorem rs1Of_encodeB (imm : BitVec 13) (rs2 rs1 : Reg) (f3 : BitVec 3) (c : OpcodeClass) :
    rs1Of (encodeB imm rs2 rs1 f3 c) = rs1 := by
  have hb0 := imm.isLt
  have hb1 := rs2.isLt
  have hb2 := rs1.isLt
  have hb3 := f3.isLt
  have hc := code_lt c
  apply Fin.ext
  rw [rs1Of_val, encodeB_toNat]
  generalize hq0 : imm.toNat / 4096 = q0
  generalize hq1 : imm.toNat / 32 % 64 = q1
  generalize hq2 : imm.toNat / 2 % 16 = q2
  generalize hq3 : imm.toNat / 2048 % 2 = q3
  obtain ⟨hl0, hl1, hl2, hl3⟩ : q0 < 2 ∧ q1 < 64 ∧ q2 < 16 ∧ q3 < 2 := by omega
  clear hq0 hq1 hq2 hq3
  clear hb0
  omega

theorem rs2Of_encodeB (imm : BitVec 13) (rs2 rs1 : Reg) (f3 : BitVec 3) (c : OpcodeClass) :
    rs2Of (encodeB imm rs2 rs1 f3 c) = rs2 := by
  have hb0 := imm.isLt
  have hb1 := rs2.isLt
  have hb2 := rs1.isLt
  have hb3 := f3.isLt
  have hc := code_lt c
  apply Fin.ext
  rw [rs2Of_val, encodeB_toNat]
  generalize hq0 : imm.toNat / 4096 = q0
  generalize hq1 : imm.toNat / 32 % 64 = q1
  generalize hq2 : imm.toNat / 2 % 16 = q2
  generalize hq3 : imm.toNat / 2048 % 2 = q3
  obtain ⟨hl0, hl1, hl2, hl3⟩ : q0 < 2 ∧ q1 < 64 ∧ q2 < 16 ∧ q3 < 2 := by omega
  clear hq0 hq1 hq2 hq3
  clear hb0
  omega

theorem immBBits_encodeB (imm : BitVec 13) (rs2 rs1 : Reg) (f3 : BitVec 3) (c : OpcodeClass) (he :
    imm.toNat % 2 = 0) : immBBits (encodeB imm rs2 rs1 f3 c) = imm := by
  have hb0 := imm.isLt
  have hb1 := rs2.isLt
  have hb2 := rs1.isLt
  have hb3 := f3.isLt
  have hc := code_lt c
  apply BitVec.eq_of_toNat_eq
  rw [immBBits_toNat, encodeB_toNat]
  generalize hq0 : imm.toNat / 4096 = q0
  generalize hq1 : imm.toNat / 32 % 64 = q1
  generalize hq2 : imm.toNat / 2 % 16 = q2
  generalize hq3 : imm.toNat / 2048 % 2 = q3
  obtain ⟨hl0, hl1, hl2, hl3, hx⟩ : q0 < 2 ∧ q1 < 64 ∧ q2 < 16 ∧ q3 < 2 ∧ imm.toNat = 4096 * q0 + 2048 * q3 + 32 * q1 + 2 * q2 := by omega
  clear hq0 hq1 hq2 hq3
  rw [hx]
  clear hx hb0 he
  omega

theorem opcodeOf_encodeU (imm : BitVec 20) (rd : Reg) (c : OpcodeClass) : opcodeOf (encodeU imm rd c) = c.code := by
  have hb0 := imm.isLt
  have hb1 := rd.isLt
  have hc := code_lt c
  apply BitVec.eq_of_toNat_eq
  rw [opcodeOf_toNat, encodeU_toNat]
  omega

theorem rdOf_encodeU (imm : BitVec 20) (rd : Reg) (c : OpcodeClass) : rdOf (encodeU imm rd c) = rd := by
  have hb0 := imm.isLt
  have hb1 := rd.isLt
  have hc := code_lt c
  apply Fin.ext
  rw [rdOf_val, encodeU_toNat]
  omega

theorem imm20Of_encodeU (imm : BitVec 20) (rd : Reg) (c : OpcodeClass) : imm20Of (encodeU imm rd c) = imm := by
  have hb0 := imm.isLt
  have hb1 := rd.isLt
  have hc := code_lt c
  apply BitVec.eq_of_toNat_eq
  rw [imm20Of_toNat, encodeU_toNat]
  omega

theorem opcodeOf_encodeJ (imm : BitVec 21) (rd : Reg) (c : OpcodeClass) : opcodeOf (encodeJ imm rd c) = c.code := by
  have hb0 := imm.isLt
  have hb1 := rd.isLt
  have hc := code_lt c
  apply BitVec.eq_of_toNat_eq
  rw [opcodeOf_toNat, encodeJ_toNat]
  generalize hq0 : imm.toNat / 1048576 = q0
  generalize hq1 : imm.toNat / 2 % 1024 = q1
  generalize hq2 : imm.toNat / 2048 % 2 = q2
  generalize hq3 : imm.toNat / 4096 % 256 = q3
  obtain ⟨hl0, hl1, hl2, hl3⟩ : q0 < 2 ∧ q1 < 1024 ∧ q2 < 2 ∧ q3 < 256 := by omega
  clear hq0 hq1 hq2 hq3
  clear hb0
  omega

theorem rdOf_encodeJ (imm : BitVec 21) (rd : Reg) (c : OpcodeClass) : rdOf (encodeJ imm rd c) = rd := by
  have hb0 := imm.isLt
  have hb1 := rd.isLt
  have hc := code_lt c
  apply Fin.ext
  rw [rdOf_val, encodeJ_toNat]
  generalize hq0 : imm.toNat / 1048576 = q0
  generalize hq1 : imm.toNat / 2 % 1024 = q1
  generalize hq2 : imm.toNat / 2048 % 2 = q2
  generalize hq3 : imm.toNat / 4096 % 256 = q3
  obtain ⟨hl0, hl1, hl2, hl3⟩ : q0 < 2 ∧ q1 < 1024 ∧ q2 < 2 ∧ q3 < 256 := by omega
  clear hq0 hq1 hq2 hq3
  clear hb0
  omega

theorem immJBits_encodeJ (imm : BitVec 21) (rd : Reg) (c : OpcodeClass) (he :
    imm.toNat % 2 = 0) : immJBits (encodeJ imm rd c) = imm := by
  have hb0 := imm.isLt
  have hb1 := rd.isLt
  have hc := code_lt c
  apply BitVec.eq_of_toNat_eq
  rw [immJBits_toNat, encodeJ_toNat]
  generalize hq0 : imm.toNat / 1048576 = q0
  generalize hq1 : imm.toNat / 2 % 1024 = q1
  generalize hq2 : imm.toNat / 2048 % 2 = q2
  generalize hq3 : imm.toNat / 4096 % 256 = q3
  obtain ⟨hl0, hl1, hl2, hl3, hx⟩ : q0 < 2 ∧ q1 < 1024 ∧ q2 < 2 ∧ q3 < 256 ∧ imm.toNat = 1048576 * q0 + 4096 * q3 + 2048 * q2 + 2 * q1 := by omega
  clear hq0 hq1 hq2 hq3
  rw [hx]
  clear hx hb0 he
  omega

/-! ### Immediates -/

theorem even_ofInt_13 (imm : Int) (h : immBOk imm = true) : (BitVec.ofInt 13 imm).toNat % 2 = 0 := by
  simp only [immBOk, Bool.and_eq_true, decide_eq_true_eq] at h
  rw [BitVec.toNat_ofInt]; omega

theorem even_ofInt_21 (imm : Int) (h : immJOk imm = true) : (BitVec.ofInt 21 imm).toNat % 2 = 0 := by
  simp only [immJOk, Bool.and_eq_true, decide_eq_true_eq] at h
  rw [BitVec.toNat_ofInt]; omega

theorem immI_encodeI (imm : Int) (rs1 f3 rd c) (h :
    immIOk imm = true) : immI (encodeI (BitVec.ofInt 12 imm) rs1 f3 rd c) = imm := by
  rw [immI_eq, immIBits_encodeI, toInt_ofInt_12 imm h]

theorem immS_encodeS (imm : Int) (rs2 rs1 f3 c) (h :
    immIOk imm = true) : immS (encodeS (BitVec.ofInt 12 imm) rs2 rs1 f3 c) = imm := by
  rw [immS_eq, immSBits_encodeS, toInt_ofInt_12 imm h]

theorem immB_encodeB (imm : Int) (rs2 rs1 f3 c) (h :
    immBOk imm = true) : immB (encodeB (BitVec.ofInt 13 imm) rs2 rs1 f3 c) = imm := by
  rw [immB_eq, immBBits_encodeB _ _ _ _ _ (even_ofInt_13 imm h), toInt_ofInt_13 imm h]

theorem immJ_encodeJ (imm : Int) (rd c) (h : immJOk imm = true) : immJ (encodeJ (BitVec.ofInt 21 imm) rd c) = imm := by
  rw [immJ_eq, immJBits_encodeJ _ _ _ (even_ofInt_21 imm h), toInt_ofInt_21 imm h]

/-! ### The fields of a word, encoded, are the word -/

theorem encodeR_fields (w : Word) (c : OpcodeClass) (f3 f7) (h :
    opcodeOf w = c.code) (h3 : funct3Of w = f3) (h7 : funct7Of w = f7) : encodeR f7 (rs2Of w) (rs1Of w) f3 (rdOf w) c = w := by
  have hw := w.isLt
  apply BitVec.eq_of_toNat_eq
  rw [encodeR_toNat, ← h, ← h3, ← h7, funct7Of_toNat, funct3Of_toNat, opcodeOf_toNat, rs2Of_val, rs1Of_val, rdOf_val]; omega

theorem encodeI_fields (w : Word) (c : OpcodeClass) (f3) (h :
    opcodeOf w = c.code) (h3 : funct3Of w = f3) : encodeI (BitVec.ofInt 12 (immI w)) (rs1Of w) f3 (rdOf w) c = w := by
  have hw := w.isLt
  apply BitVec.eq_of_toNat_eq
  rw [immI_eq, BitVec.ofInt_toInt, encodeI_toNat, ← h, ← h3, funct3Of_toNat, opcodeOf_toNat, immIBits_toNat, rs1Of_val, rdOf_val]; omega

theorem encodeI_csr_fields (w : Word) (c : OpcodeClass) (f3) (h :
    opcodeOf w = c.code) (h3 : funct3Of w = f3) : encodeI (csrOf w) (rs1Of w) f3 (rdOf w) c = w := by
  have hw := w.isLt
  apply BitVec.eq_of_toNat_eq
  rw [encodeI_toNat, ← h, ← h3, funct3Of_toNat, opcodeOf_toNat, csrOf_toNat, rs1Of_val, rdOf_val]; omega

theorem encodeS_fields (w : Word) (c : OpcodeClass) (f3) (h :
    opcodeOf w = c.code) (h3 : funct3Of w = f3) : encodeS (BitVec.ofInt 12 (immS w)) (rs2Of w) (rs1Of w) f3 c = w := by
  have hw := w.isLt
  apply BitVec.eq_of_toNat_eq
  rw [immS_eq, BitVec.ofInt_toInt, encodeS_toNat, ← h, ← h3, funct3Of_toNat, opcodeOf_toNat, immSBits_toNat, rs1Of_val, rs2Of_val]
  have key : ∀ p q : Nat, p < 128 → q < 32 → (p * 32 + q) / 32 = p ∧ (p * 32 + q) % 32 = q := by intro p q _ _; omega
  obtain ⟨k1, k2⟩ := key (w.toNat / 33554432 % 128) (w.toNat / 128 % 32) (by omega) (by omega)
  rw [k1, k2]
  clear k1 k2 key h h3
  omega

theorem encodeB_fields (w : Word) (c : OpcodeClass) (f3) (h :
    opcodeOf w = c.code) (h3 : funct3Of w = f3) : encodeB (BitVec.ofInt 13 (immB w)) (rs2Of w) (rs1Of w) f3 c = w := by
  have hw := w.isLt
  apply BitVec.eq_of_toNat_eq
  rw [immB_eq, BitVec.ofInt_toInt, encodeB_toNat, ← h, ← h3, funct3Of_toNat, opcodeOf_toNat, immBBits_toNat, rs1Of_val, rs2Of_val]
  have key : ∀ p q r s : Nat, p < 2 → q < 2 → r < 64 → s < 16 → (p * 4096 + q * 2048 + r * 32 + s * 2) / 4096 = p ∧ (p * 4096 + q * 2048 + r * 32 + s * 2) / 2048 % 2 = q ∧ (p * 4096 + q * 2048 + r * 32 + s * 2) / 32 % 64 = r ∧ (p * 4096 + q * 2048 + r * 32 + s * 2) / 2 % 16 = s := by intro p q r s _ _ _ _; refine ⟨?_, ?_, ?_, ?_⟩ <;> omega
  obtain ⟨k1, k2, k3, k4⟩ := key (w.toNat / 2147483648 % 2) (w.toNat / 128 % 2) (w.toNat / 33554432 % 64) (w.toNat / 256 % 16) (by omega) (by omega) (by omega) (by omega)
  rw [k1, k2, k3, k4]
  clear k1 k2 k3 k4 key h h3
  omega

theorem encodeU_fields (w : Word) (c : OpcodeClass) (h : opcodeOf w = c.code) : encodeU (imm20Of w) (rdOf w) c = w := by
  have hw := w.isLt
  apply BitVec.eq_of_toNat_eq
  rw [encodeU_toNat, ← h, opcodeOf_toNat, imm20Of_toNat, rdOf_val]; omega

theorem encodeJ_fields (w : Word) (c : OpcodeClass) (h :
    opcodeOf w = c.code) : encodeJ (BitVec.ofInt 21 (immJ w)) (rdOf w) c = w := by
  have hw := w.isLt
  apply BitVec.eq_of_toNat_eq
  rw [immJ_eq, BitVec.ofInt_toInt, encodeJ_toNat, ← h, opcodeOf_toNat, immJBits_toNat, rdOf_val]
  have key : ∀ p q r s : Nat, p < 2 → q < 256 → r < 2 → s < 1024 → (p * 1048576 + q * 4096 + r * 2048 + s * 2) / 1048576 = p ∧ (p * 1048576 + q * 4096 + r * 2048 + s * 2) / 4096 % 256 = q ∧ (p * 1048576 + q * 4096 + r * 2048 + s * 2) / 2048 % 2 = r ∧ (p * 1048576 + q * 4096 + r * 2048 + s * 2) / 2 % 1024 = s := by intro p q r s _ _ _ _; refine ⟨?_, ?_, ?_, ?_⟩ <;> omega
  obtain ⟨k1, k2, k3, k4⟩ := key (w.toNat / 2147483648 % 2) (w.toNat / 4096 % 256) (w.toNat / 1048576 % 2) (w.toNat / 2097152 % 1024) (by omega) (by omega) (by omega) (by omega)
  rw [k1, k2, k3, k4]
  clear k1 k2 k3 k4 key h
  omega

end Sys2Proof
end

