-- ==== Sys2Proof/Laws/Memory.lean ====
section
/-! SUPPORT. The laws of memory: read after write, writes leave other bytes alone, and every memory operation keeps the
canonical form (20_memory.md R53, R54, R58, R60). -/

namespace Sys2Proof

/-! ### One byte -/

theorem Memory.byteAt_filter_ne (m : Memory) (a b : Nat) :
    Memory.byteAt (m.filter (fun c => decide (c.1 ≠ a))) b = if b = a then unlistedByte else m.byteAt b := by
  induction m with
  | nil => simp [Memory.byteAt]
  | cons c rest ih =>
    obtain ⟨k, v⟩ := c
    by_cases hk : k = a
    · rw [List.filter_cons_of_neg (by simpa using hk), ih]
      simp only [Memory.byteAt]
      split_ifs <;> first | rfl | omega
    · rw [List.filter_cons_of_pos (by simpa using hk)]
      simp only [Memory.byteAt, ih]
      split_ifs <;> first | rfl | omega

theorem Memory.byteAt_insertByte (m : Memory) (a b : Nat) (v : Byte) :
    Memory.byteAt (m.insertByte a v) b = if b = a then v else m.byteAt b := by
  induction m with
  | nil =>
    simp only [Memory.insertByte, Memory.byteAt]
    split_ifs <;> first | rfl | omega
  | cons c rest ih =>
    obtain ⟨k, w⟩ := c
    unfold Memory.insertByte
    split
    · simp only [Memory.byteAt]
      split_ifs <;> first | rfl | omega
    · split
      · simp only [Memory.byteAt]
        split_ifs <;> first | rfl | omega
      · simp only [Memory.byteAt, ih]
        split_ifs <;> first | rfl | omega

/-- Read after write of one byte, and the frame of the write. -/
theorem Memory.byteAt_setByte (m : Memory) (a b : Nat) (v : Byte) :
    Memory.byteAt (m.setByte a v) b = if b = a then v else m.byteAt b := by
  unfold Memory.setByte
  split
  · rename_i h
    rw [Memory.byteAt_filter_ne, h]
  · exact Memory.byteAt_insertByte m a b v

/-! ### The canonical form -/

theorem Memory.wf_cons (a : Nat) (b : Byte) (rest : Memory) :
    Memory.wf ((a, b) :: rest) = true ↔
      b ≠ unlistedByte ∧ (∀ c ∈ rest, a < c.1) ∧ Memory.wf rest = true := by
  simp [Memory.wf, and_assoc]

theorem Memory.wf_filter (m : Memory) (p : Host.Cell → Bool) (h : m.wf = true) : Memory.wf (m.filter p) = true := by
  induction m with
  | nil => simpa using h
  | cons c rest ih =>
    obtain ⟨a, b⟩ := c
    rw [Memory.wf_cons] at h
    obtain ⟨hb, hlt, hrest⟩ := h
    by_cases hp : p (a, b) = true
    · rw [List.filter_cons_of_pos hp, Memory.wf_cons]
      exact ⟨hb, fun c hc => hlt c (List.mem_filter.mp hc).1, ih hrest⟩
    · rw [List.filter_cons_of_neg hp]
      exact ih hrest

theorem Memory.mem_insertByte (m : Memory) (a : Nat) (v : Byte) (c : Host.Cell) (h : c ∈ m.insertByte a v) :
    c = (a, v) ∨ c ∈ m := by
  induction m with
  | nil => simpa [Memory.insertByte] using h
  | cons d rest ih =>
    obtain ⟨k, w⟩ := d
    unfold Memory.insertByte at h
    split at h
    · simp_all
    · split at h
      · simp at h ⊢
        tauto
      · rcases List.mem_cons.mp h with h' | h'
        · exact .inr (by simp [h'])
        · rcases ih h' with h'' | h''
          · exact .inl h''
          · exact .inr (List.mem_cons_of_mem _ h'')

theorem Memory.wf_insertByte (m : Memory) (a : Nat) (v : Byte) (hv : v ≠ unlistedByte) (h : m.wf = true) :
    Memory.wf (m.insertByte a v) = true := by
  induction m with
  | nil => simp [Memory.insertByte, Memory.wf, hv]
  | cons d rest ih =>
    obtain ⟨k, w⟩ := d
    have h' := h
    rw [Memory.wf_cons] at h'
    obtain ⟨hw, hlt, hrest⟩ := h'
    unfold Memory.insertByte
    split
    · rename_i hak
      rw [Memory.wf_cons]
      refine ⟨hv, fun c hc => ?_, h⟩
      rcases List.mem_cons.mp hc with rfl | hc'
      · exact hak
      · exact lt_trans hak (hlt c hc')
    · split
      · rename_i hak
        subst hak
        exact (Memory.wf_cons _ _ _).mpr ⟨hv, hlt, hrest⟩
      · rename_i hnlt hne
        rw [Memory.wf_cons]
        refine ⟨hw, fun c hc => ?_, ih hrest⟩
        rcases Memory.mem_insertByte rest a v c hc with rfl | hc'
        · show k < a
          omega
        · exact hlt c hc'

/-- Writing a byte keeps the canonical form. -/
theorem Memory.wf_setByte (m : Memory) (a : Nat) (v : Byte) (h : m.wf = true) : Memory.wf (m.setByte a v) = true := by
  unfold Memory.setByte
  split
  · exact Memory.wf_filter m _ h
  · exact Memory.wf_insertByte m a v ‹_› h

theorem Memory.below_iff (m : Memory) (n : Nat) : m.below n = true ↔ ∀ c ∈ m, c.1 < n := by
  simp [Memory.below]

/-- Writing a byte inside memory lists nothing outside it. -/
theorem Memory.below_setByte (m : Memory) (a n : Nat) (v : Byte) (ha : a < n) (h : m.below n = true) :
    Memory.below (m.setByte a v) n = true := by
  rw [Memory.below_iff] at h ⊢
  unfold Memory.setByte
  split
  · exact fun c hc => h c (List.mem_filter.mp hc).1
  · intro c hc
    rcases Memory.mem_insertByte m a v c hc with rfl | hc'
    · exact ha
    · exact h c hc'

/-! ### Wide accesses -/

theorem Memory.readLE_lt (m : Memory) (a n : Nat) : m.readLE a n < 2 ^ (8 * n) := by
  induction n generalizing a with
  | zero => simp [Memory.readLE]
  | succ n ih =>
    have := ih (a + 1)
    have hb := (m.byteAt a).isLt
    rw [Memory.readLE, show 8 * (n + 1) = 8 * n + 8 by ring, pow_add]
    omega

/-- A wide read depends on its bytes alone. -/
theorem Memory.readLE_congr (m m' : Memory) (a n : Nat) (h : ∀ k, k < n → m.byteAt (a + k) = m'.byteAt (a + k)) :
    m.readLE a n = m'.readLE a n := by
  induction n generalizing a with
  | zero => rfl
  | succ n ih =>
    rw [Memory.readLE, Memory.readLE, ih (a + 1) (fun k hk => ?_)]
    · have := h 0 (by omega)
      simp at this
      rw [this]
    · have := h (k + 1) (by omega)
      rwa [show a + (k + 1) = a + 1 + k by ring] at this

/-- Every byte after a wide write: the low bytes of the value, lowest first, and all others unchanged. -/
theorem Memory.byteAt_writeLE (m : Memory) (a n v b : Nat) :
    Memory.byteAt (m.writeLE a n v) b =
      if a ≤ b ∧ b < a + n then BitVec.ofNat 8 (v / 2 ^ (8 * (b - a))) else m.byteAt b := by
  induction n generalizing m a v with
  | zero =>
    have : ¬ (a ≤ b ∧ b < a + 0) := by omega
    rw [if_neg this, Memory.writeLE]
  | succ n ih =>
    rw [Memory.writeLE, ih]
    by_cases h1 : a + 1 ≤ b ∧ b < a + 1 + n
    · rw [if_pos h1, if_pos (by omega), Nat.div_div_eq_div_mul,
        show 8 * (b - a) = 8 + 8 * (b - (a + 1)) by omega, pow_add]
      norm_num
    · rw [if_neg h1, Memory.byteAt_setByte]
      by_cases h2 : b = a
      · subst h2
        simp
      · rw [if_neg h2, if_neg (by omega)]

theorem Memory.wf_writeLE (m : Memory) (a n v : Nat) (h : m.wf = true) : Memory.wf (m.writeLE a n v) = true := by
  induction n generalizing m a v with
  | zero => exact h
  | succ n ih => exact ih _ _ _ (Memory.wf_setByte m a _ h)

theorem Memory.below_writeLE (m : Memory) (a n v k : Nat) (hk : a + n ≤ k) (h : m.below k = true) :
    Memory.below (m.writeLE a n v) k = true := by
  induction n generalizing m a v with
  | zero => exact h
  | succ n ih => exact ih _ _ _ (by omega) (Memory.below_setByte m a k _ (by omega) h)

/-- A wide read at the address of a wide write of the same width gives the low bytes of the value. -/
theorem Memory.readLE_writeLE (m : Memory) (a n v : Nat) :
    Memory.readLE (m.writeLE a n v) a n = v % 2 ^ (8 * n) := by
  have key : ∀ (j : Nat) (w : Nat) (m' : Memory) (c : Nat),
      (∀ k, k < j → m'.byteAt (c + k) = BitVec.ofNat 8 (w / 2 ^ (8 * k))) → m'.readLE c j = w % 2 ^ (8 * j) := by
    intro j
    induction j with
    | zero => intro w m' c _; simp [Memory.readLE, Nat.mod_one]
    | succ j ih =>
      intro w m' c hc
      rw [Memory.readLE, ih (w / 256) m' (c + 1) (fun k hk => ?_)]
      · have h0 := hc 0 (by omega)
        simp only [Nat.add_zero, Nat.mul_zero, pow_zero, Nat.div_one] at h0
        rw [h0, BitVec.toNat_ofNat, show 8 * (j + 1) = 8 + 8 * j by ring, pow_add, Nat.mod_mul]
        norm_num
      · have := hc (k + 1) (by omega)
        rw [show c + 1 + k = c + (k + 1) by ring, this, Nat.div_div_eq_div_mul,
          show 8 * (k + 1) = 8 + 8 * k by ring, pow_add]
        norm_num
  refine key n v _ a (fun k hk => ?_)
  rw [Memory.byteAt_writeLE, if_pos (by omega), show a + k - a = k by omega]

/-! ### Byte sequences (R58) -/

theorem Memory.byteAt_writeBytes (m : Memory) (a b : Nat) (bytes : List Byte) :
    Memory.byteAt (m.writeBytes a bytes) b =
      if h : a ≤ b ∧ b < a + bytes.length then bytes[b - a]'(by omega) else m.byteAt b := by
  induction bytes generalizing m a with
  | nil =>
    have : ¬ (a ≤ b ∧ b < a + ([] : List Byte).length) := by simp
    rw [dif_neg this, Memory.writeBytes]
  | cons v rest ih =>
    rw [Memory.writeBytes, ih]
    by_cases h1 : a + 1 ≤ b ∧ b < a + 1 + rest.length
    · rw [dif_pos h1, dif_pos (by simp; omega)]
      have : b - a = (b - (a + 1)) + 1 := by omega
      simp [this]
    · rw [dif_neg h1, Memory.byteAt_setByte]
      by_cases h2 : b = a
      · subst h2
        simp
      · rw [if_neg h2, dif_neg (by simp; omega)]

theorem Memory.wf_writeBytes (m : Memory) (a : Nat) (bytes : List Byte) (h : m.wf = true) :
    Memory.wf (m.writeBytes a bytes) = true := by
  induction bytes generalizing m a with
  | nil => exact h
  | cons v rest ih => exact ih _ _ (Memory.wf_setByte m a v h)

theorem Memory.below_writeBytes (m : Memory) (a k : Nat) (bytes : List Byte) (hk : a + bytes.length ≤ k)
    (h : m.below k = true) : Memory.below (m.writeBytes a bytes) k = true := by
  induction bytes generalizing m a with
  | nil => exact h
  | cons v rest ih =>
    simp only [List.length_cons] at hk
    exact ih _ _ (by omega) (Memory.below_setByte m a k v (by omega) h)

end Sys2Proof
end

