-- ==== Sys2Proof/Laws/State.lean ====
section
/-! SUPPORT. One lemma per field per update of the state, each true by unfolding, so that no later proof unfolds a record
update. -/

namespace Sys2Proof.Machine

/-! ### `setReg` -/

@[simp] theorem State.setReg_x (s : State) (r : Reg) (v : Word) : (s.setReg r v).x = s.x.set r.val v r.isLt := rfl
@[simp] theorem State.setReg_pc (s : State) (r : Reg) (v : Word) : (s.setReg r v).pc = s.pc := rfl
@[simp] theorem State.setReg_mem (s : State) (r : Reg) (v : Word) : (s.setReg r v).mem = s.mem := rfl
@[simp] theorem State.setReg_icount (s : State) (r : Reg) (v : Word) : (s.setReg r v).icount = s.icount := rfl
@[simp] theorem State.setReg_run (s : State) (r : Reg) (v : Word) : (s.setReg r v).run = s.run := rfl
@[simp] theorem State.setReg_cfg (s : State) (r : Reg) (v : Word) : (s.setReg r v).cfg = s.cfg := rfl
@[simp] theorem State.setReg_stops (s : State) (r : Reg) (v : Word) : (s.setReg r v).stops = s.stops := rfl
@[simp] theorem State.setReg_trace (s : State) (r : Reg) (v : Word) : (s.setReg r v).trace = s.trace := rfl

/-! ### `raise` -/

@[simp] theorem State.raise_x (s : State) (info : FaultInfo) : (s.raise info).x = s.x := rfl
@[simp] theorem State.raise_pc (s : State) (info : FaultInfo) : (s.raise info).pc = s.pc := rfl
@[simp] theorem State.raise_mem (s : State) (info : FaultInfo) : (s.raise info).mem = s.mem := rfl
@[simp] theorem State.raise_icount (s : State) (info : FaultInfo) : (s.raise info).icount = s.icount := rfl
@[simp] theorem State.raise_run (s : State) (info : FaultInfo) : (s.raise info).run = .halted (.fault { pc := s.pc, word := s.fetchWord, info := info }) := rfl
@[simp] theorem State.raise_cfg (s : State) (info : FaultInfo) : (s.raise info).cfg = s.cfg := rfl
@[simp] theorem State.raise_stops (s : State) (info : FaultInfo) : (s.raise info).stops = s.stops := rfl
@[simp] theorem State.raise_trace (s : State) (info : FaultInfo) : (s.raise info).trace = s.trace := rfl

/-! ### `commit` -/

@[simp] theorem State.commit_x (s : State) (m : Mnemonic) (p : Word) (h : Option HaltReason) : (s.commit m p h).x = s.x.set 0 0 := rfl
@[simp] theorem State.commit_pc (s : State) (m : Mnemonic) (p : Word) (h : Option HaltReason) : (s.commit m p h).pc = p := rfl
@[simp] theorem State.commit_mem (s : State) (m : Mnemonic) (p : Word) (h : Option HaltReason) : (s.commit m p h).mem = s.mem := rfl
@[simp] theorem State.commit_icount (s : State) (m : Mnemonic) (p : Word) (h : Option HaltReason) : (s.commit m p h).icount = s.icount + 1 := rfl
@[simp] theorem State.commit_run (s : State) (m : Mnemonic) (p : Word) (h : Option HaltReason) : (s.commit m p h).run = s.runAfter h := rfl
@[simp] theorem State.commit_cfg (s : State) (m : Mnemonic) (p : Word) (h : Option HaltReason) : (s.commit m p h).cfg = s.cfg := rfl
@[simp] theorem State.commit_stops (s : State) (m : Mnemonic) (p : Word) (h : Option HaltReason) : (s.commit m p h).stops = s.stops := rfl
@[simp] theorem State.commit_trace (s : State) (m : Mnemonic) (p : Word) (h : Option HaltReason) : (s.commit m p h).trace = { count := s.icount + 1, oldPc := s.pc, mnemonic := m } :: s.trace := rfl

/-! ### `afterSample` -/

@[simp] theorem State.afterSample_x (s : State) : (s.afterSample).x = s.x := rfl
@[simp] theorem State.afterSample_pc (s : State) : (s.afterSample).pc = s.pc := rfl
@[simp] theorem State.afterSample_mem (s : State) : (s.afterSample).mem = s.mem := rfl
@[simp] theorem State.afterSample_icount (s : State) : (s.afterSample).icount = s.icount := rfl
@[simp] theorem State.afterSample_run (s : State) : (s.afterSample).run = s.run := rfl
@[simp] theorem State.afterSample_cfg (s : State) : (s.afterSample).cfg = s.cfg := rfl
@[simp] theorem State.afterSample_stops (s : State) : (s.afterSample).stops = s.stops.tail := rfl
@[simp] theorem State.afterSample_trace (s : State) : (s.afterSample).trace = s.trace := rfl

/-! ### `withWordAtPc` -/

@[simp] theorem State.withWordAtPc_x (s : State) (w : Word) : (s.withWordAtPc w).x = s.x := rfl
@[simp] theorem State.withWordAtPc_pc (s : State) (w : Word) : (s.withWordAtPc w).pc = s.pc := rfl
@[simp] theorem State.withWordAtPc_mem (s : State) (w : Word) : (s.withWordAtPc w).mem = s.mem.writeLE s.pc.toNat 4 w.toNat := rfl
@[simp] theorem State.withWordAtPc_icount (s : State) (w : Word) : (s.withWordAtPc w).icount = s.icount := rfl
@[simp] theorem State.withWordAtPc_run (s : State) (w : Word) : (s.withWordAtPc w).run = .running := rfl
@[simp] theorem State.withWordAtPc_cfg (s : State) (w : Word) : (s.withWordAtPc w).cfg = s.cfg := rfl
@[simp] theorem State.withWordAtPc_stops (s : State) (w : Word) : (s.withWordAtPc w).stops = false :: s.stops.tail := rfl
@[simp] theorem State.withWordAtPc_trace (s : State) (w : Word) : (s.withWordAtPc w).trace = s.trace := rfl

/-! ### `resetWith` -/

@[simp] theorem State.resetWith_pc (c : Config) : (State.resetWith c).pc = c.startPc := rfl
@[simp] theorem State.resetWith_mem (c : Config) : (State.resetWith c).mem = c.initMem := rfl
@[simp] theorem State.resetWith_icount (c : Config) : (State.resetWith c).icount = 0 := rfl
@[simp] theorem State.resetWith_run (c : Config) : (State.resetWith c).run = .running := rfl
@[simp] theorem State.resetWith_cfg (c : Config) : (State.resetWith c).cfg = c := rfl
@[simp] theorem State.resetWith_stops (c : Config) : (State.resetWith c).stops = [] := rfl
@[simp] theorem State.resetWith_trace (c : Config) : (State.resetWith c).trace = [] := rfl

end Sys2Proof.Machine
end

