-- ==== Sys2Proof/Laws/Ops.lean ====
section
/-! SUPPORT. The shared operations: what each one does, said once (00_scope.md R17; 40_step_cycle.md R136 to R141). -/

namespace Sys2Proof.Machine

/-! ### Registers (R22, R23) -/

@[simp] theorem State.getReg_zero (s : State) : s.getReg 0 = 0 := rfl

theorem State.getReg_of_ne (s : State) (r : Reg) (h : r ≠ 0) : s.getReg r = s.x.get r := if_neg h

/-- A register reads alike in states with the same register file. -/
theorem State.getReg_congr (s t : State) (h : t.x = s.x) (r : Reg) : t.getReg r = s.getReg r := by
  unfold State.getReg
  rw [h]

theorem get_set (x : Vector Word 32) (r q : Reg) (v : Word) :
    (x.set r.val v r.isLt).get q = if q = r then v else x.get q := by
  rw [Vector.get_eq_getElem, Vector.get_eq_getElem, Vector.getElem_set]
  by_cases h : r = q
  · simp [h]
  · have h1 : ¬ r.val = q.val := fun h' => h (Fin.ext h')
    have h2 : ¬ q = r := fun h' => h h'.symm
    simp [h1, h2]

theorem State.getReg_setReg (s : State) (r q : Reg) (v : Word) :
    (s.setReg r v).getReg q = if q = r ∧ r ≠ 0 then v else s.getReg q := by
  unfold State.getReg
  by_cases hq : q = 0
  · subst hq
    have : ¬ ((0 : Reg) = r ∧ r ≠ 0) := fun h => h.2 h.1.symm
    simp [this]
  · rw [if_neg hq, if_neg hq, State.setReg_x, get_set]
    by_cases h : q = r
    · subst h
      simp [hq]
    · simp [h]

@[simp] theorem State.getReg_commit (s : State) (m : Mnemonic) (p : Word) (h : Option HaltReason) (q : Reg) :
    (s.commit m p h).getReg q = s.getReg q := by
  unfold State.getReg
  by_cases hq : q = 0
  · simp [hq]
  · rw [if_neg hq, if_neg hq, State.commit_x]
    have := get_set s.x 0 q 0
    rw [if_neg hq] at this
    exact this

/-- Commit leaves 0 in register 0, whatever it held (R137). -/
@[simp] theorem State.commit_zeroReg (s : State) (m : Mnemonic) (p : Word) (h : Option HaltReason) :
    (s.commit m p h).x.get 0 = 0 := by
  have := get_set s.x 0 0 0
  simpa using this

/-! ### Memory access (R53 to R55) -/

theorem State.inBounds_iff (s : State) (addr : Word) (n : Nat) :
    s.inBounds addr n = true ↔ addr.toNat + n ≤ s.cfg.memSize := by
  simp [State.inBounds]

theorem State.memRead_of_le (s : State) (addr : Word) (n : Nat) (h : addr.toNat + n ≤ s.cfg.memSize) :
    s.memRead addr n = some (s.mem.readLE addr.toNat n) := by
  rw [State.memRead, if_pos ((s.inBounds_iff addr n).mpr h)]

theorem State.memRead_of_gt (s : State) (addr : Word) (n : Nat) (h : s.cfg.memSize < addr.toNat + n) :
    s.memRead addr n = none := by
  rw [State.memRead, if_neg]
  rw [s.inBounds_iff]
  omega

theorem State.memWrite_of_le (s : State) (addr : Word) (n : Nat) (v : Word) (h : addr.toNat + n ≤ s.cfg.memSize) :
    s.memWrite addr n v = some { s with mem := s.mem.writeLE addr.toNat n v.toNat } := by
  rw [State.memWrite, if_pos ((s.inBounds_iff addr n).mpr h)]

theorem State.memWrite_of_gt (s : State) (addr : Word) (n : Nat) (v : Word) (h : s.cfg.memSize < addr.toNat + n) :
    s.memWrite addr n v = none := by
  rw [State.memWrite, if_neg]
  rw [s.inBounds_iff]
  omega

/-- The word at `pc` depends on `pc`, memory and its size alone. -/
theorem State.fetchWord_congr (s t : State) (hp : t.pc = s.pc) (hm : t.mem = s.mem) (hc : t.cfg = s.cfg) :
    t.fetchWord = s.fetchWord := by
  unfold State.fetchWord State.memRead State.inBounds
  rw [hp, hm, hc]

@[simp] theorem State.fetchWord_raise (s : State) (info : FaultInfo) : (s.raise info).fetchWord = s.fetchWord := rfl

@[simp] theorem State.fetchWord_afterSample (s : State) : s.afterSample.fetchWord = s.fetchWord := rfl

/-! ### Fault entry and commit -/

theorem State.raise_eq_faulted (s : State) (info : FaultInfo) : s.raise info = faulted s s.fetchWord info := rfl

/-- The run state of a commit that does not halt by itself (R141). -/
theorem State.runAfter_none (s : State) : s.runAfter none = runUnlessBudget s := by
  unfold State.runAfter runUnlessBudget budgetReached
  cases s.cfg.maxInstructions <;> simp

/-- What a commit leaves beside registers and memory (R137). -/
theorem State.commit_committed (s : State) (m : Mnemonic) (p : Word) (h : Option HaltReason) :
    Committed s (s.commit m p h) m p (s.runAfter h) :=
  ⟨rfl, s.commit_zeroReg m p h, rfl, rfl, rfl, rfl, rfl⟩

/-- `rd` written, then committed: registers, memory and bookkeeping (R138). -/
theorem State.setReg_commit_spec (s : State) (m : Mnemonic) (rd : Reg) (v p : Word) :
    RegWritten s ((s.setReg rd v).commit m p none) rd v ∧ SameMem s ((s.setReg rd v).commit m p none) ∧
      Committed s ((s.setReg rd v).commit m p none) m p (runUnlessBudget s) := by
  refine ⟨fun r => ?_, fun _ => rfl, ?_⟩
  · rw [State.getReg_commit, State.getReg_setReg]
  · exact ⟨rfl, State.commit_zeroReg _ _ _ _, rfl, rfl, State.runAfter_none s, rfl, rfl⟩

/-- A commit of a state whose registers and memory were not touched. -/
theorem State.commit_spec (s : State) (m : Mnemonic) (p : Word) (h : Option HaltReason) :
    SameRegs s (s.commit m p h) ∧ SameMem s (s.commit m p h) ∧ Committed s (s.commit m p h) m p (s.runAfter h) :=
  ⟨fun r => s.getReg_commit m p h r, fun _ => rfl, s.commit_committed m p h⟩

/-- A load that is in range: `rd` takes the extended value (R180). -/
theorem State.load_of_le (s : State) (m : Mnemonic) (n : Nat) (e : Nat → Word) (rd rs1 : Reg) (imm : Int)
    (h : (s.effAddr rs1 imm).toNat + n ≤ s.cfg.memSize) :
    s.load m n e rd rs1 imm = s.retire m rd (e (s.mem.readLE (s.effAddr rs1 imm).toNat n)) := by
  rw [State.load, State.memRead_of_le s _ n h]

/-- A load that is out of range raises `MemoryFault` (R180). -/
theorem State.load_of_gt (s : State) (m : Mnemonic) (n : Nat) (e : Nat → Word) (rd rs1 : Reg) (imm : Int)
    (h : s.cfg.memSize < (s.effAddr rs1 imm).toNat + n) :
    s.load m n e rd rs1 imm = s.raise (.memoryFault (s.effAddr rs1 imm) n) := by
  rw [State.load, State.memRead_of_gt s _ n h]

/-- A store that is in range (R190). -/
theorem State.store_of_le (s : State) (m : Mnemonic) (n : Nat) (rs2 rs1 : Reg) (imm : Int)
    (h : (s.effAddr rs1 imm).toNat + n ≤ s.cfg.memSize) :
    s.store m n rs2 rs1 imm =
      ({ s with mem := s.mem.writeLE (s.effAddr rs1 imm).toNat n (s.getReg rs2).toNat } : State).commit m s.seqPc
        none := by
  rw [State.store, State.memWrite_of_le s _ n _ h]

/-- A store that is out of range raises `MemoryFault` (R190). -/
theorem State.store_of_gt (s : State) (m : Mnemonic) (n : Nat) (rs2 rs1 : Reg) (imm : Int)
    (h : s.cfg.memSize < (s.effAddr rs1 imm).toNat + n) :
    s.store m n rs2 rs1 imm = s.raise (.memoryFault (s.effAddr rs1 imm) n) := by
  rw [State.store, State.memWrite_of_gt s _ n _ h]

/-! ### One instruction, one step: every way they can end -/

/-- The faults an instruction can raise: `MemoryFault` at the bytes it accesses, these not all in memory (R180, R190,
R293), or, for a CSR instruction, `UnsupportedInstruction` with its own mnemonic (R294). -/
def ExecFault (i : Instr) (s : State) (info : FaultInfo) : Prop :=
  (∃ rs1 imm n, (loadOf i = some (rs1, imm, n) ∨ storeOf i = some (rs1, imm, n)) ∧
    s.cfg.memSize < (s.effAddr rs1 imm).toNat + n ∧ info = .memoryFault (s.effAddr rs1 imm) n) ∨
  (i.mnemonic ∈ csrMnemonics ∧ info = .unsupportedInstruction i.mnemonic)

/-- How `exec` can end: the entry of one of its faults, or the commit of the instruction over a register file and a memory
that is the old one or the old one with one in-range store. Only `ebreak` and `ecall` in halt mode halt by themselves. -/
def ExecShape (i : Instr) (s : State) : Prop :=
  (∃ info, ExecFault i s info ∧ exec i s = .next (s.raise info)) ∨
  ∃ (x : Vector Word 32) (mem : Memory) (p : Word) (h : Option HaltReason),
    exec i s = .next (({ s with x := x, mem := mem } : State).commit i.mnemonic p h) ∧
    (mem = s.mem ∨ ∃ a n v, a + n ≤ s.cfg.memSize ∧ mem = s.mem.writeLE a n v) ∧
    (h = none ∨ (h = some .breakpoint ∧ i = .ebreak) ∨
      (h = some .environmentCall ∧ i = .ecall ∧ s.cfg.ecallMode = .halt))

theorem ExecShape.ofWrite (i : Instr) (s : State) (rd : Reg) (v p : Word)
    (he : exec i s = .next ((s.setReg rd v).commit i.mnemonic p none)) : ExecShape i s :=
  .inr ⟨_, s.mem, p, none, he, .inl rfl, .inl rfl⟩

theorem ExecShape.ofLoad (i : Instr) (s : State) (n : Nat) (e : Nat → Word) (rd rs1 : Reg) (imm : Int)
    (hl : loadOf i = some (rs1, imm, n)) (he : exec i s = .next (s.load i.mnemonic n e rd rs1 imm)) :
    ExecShape i s := by
  rcases Nat.lt_or_ge s.cfg.memSize ((s.effAddr rs1 imm).toNat + n) with hb | hb
  · rw [State.load_of_gt s _ n e rd rs1 imm hb] at he
    exact .inl ⟨_, .inl ⟨rs1, imm, n, .inl hl, hb, rfl⟩, he⟩
  · rw [State.load_of_le s _ n e rd rs1 imm hb] at he
    exact .ofWrite i s rd _ _ he

theorem ExecShape.ofStore (i : Instr) (s : State) (n : Nat) (rs2 rs1 : Reg) (imm : Int)
    (hl : storeOf i = some (rs1, imm, n)) (he : exec i s = .next (s.store i.mnemonic n rs2 rs1 imm)) :
    ExecShape i s := by
  rcases Nat.lt_or_ge s.cfg.memSize ((s.effAddr rs1 imm).toNat + n) with hb | hb
  · rw [State.store_of_gt s _ n rs2 rs1 imm hb] at he
    exact .inl ⟨_, .inl ⟨rs1, imm, n, .inr hl, hb, rfl⟩, he⟩
  · rw [State.store_of_le s _ n rs2 rs1 imm hb] at he
    exact .inr ⟨s.x, _, _, none, he, .inr ⟨_, _, _, hb, rfl⟩, .inl rfl⟩

theorem execEcall_vector (s : State) (h : s.cfg.ecallMode = .vector) : exec .ecall s = .next (s.trapEntry .ecall) := by
  simp [exec, execEcall, h]

theorem execEcall_halt (s : State) (h : s.cfg.ecallMode = .halt) :
    exec .ecall s = .next (s.commit .ecall s.seqPc (some .environmentCall)) := by
  simp [exec, execEcall, h]

/-- Every instruction, in every state, ends in one of those ways; in particular it answers a next state. -/
theorem exec_cases (i : Instr) (s : State) : ExecShape i s := by
  cases i with
  | ecall =>
    have hm : s.cfg.ecallMode = .vector ∨ s.cfg.ecallMode = .halt := by
      cases s.cfg.ecallMode <;> simp
    rcases hm with hm | hm
    · exact .ofWrite .ecall s _ _ _ (execEcall_vector s hm)
    · exact .inr ⟨s.x, s.mem, _, _, execEcall_halt s hm, .inl rfl, .inr (.inr ⟨rfl, rfl, hm⟩)⟩
  | ebreak => exact .inr ⟨s.x, s.mem, _, _, rfl, .inl rfl, .inr (.inl ⟨rfl, rfl⟩)⟩
  | lb | lh | lw | lbu | lhu => exact .ofLoad _ s _ _ _ _ _ rfl rfl
  | sb | sh | sw => exact .ofStore _ s _ _ _ _ rfl rfl
  | csrrw | csrrs | csrrc | csrrwi | csrrsi | csrrci =>
    exact .inl ⟨_, .inr ⟨by simp [csrMnemonics, Instr.mnemonic], rfl⟩, rfl⟩
  | beq | bne | blt | bge | bltu | bgeu | fence | fenceI =>
    exact .inr ⟨s.x, s.mem, _, none, rfl, .inl rfl, .inl rfl⟩
  | lui | auipc | jal | jalr | addi | slti | sltiu | xori | ori | andi | slli | srli | srai | add | sub | sll | slt
  | sltu | xor | srl | sra | or | and | mul | div | divu | rem | remu =>
    exact .ofWrite _ s _ _ _ rfl

/-- How `step` can end: refused configuration, halted already, stopped, a fetch or decode fault, or one instruction. -/
theorem step_cases (s : State) :
    (s.cfg.legal = false ∧ step s = .refused .illegalConfiguration) ∨
    (s.cfg.legal = true ∧
      ((∃ r, s.run = .halted r ∧ step s = .next s) ∨
       (s.run = .running ∧
        ((s.stopSample = true ∧ step s = .next { s.afterSample with run := .halted .stopped }) ∨
         (s.stopSample = false ∧
          ((s.fetchWord = none ∧ step s = .next (s.afterSample.raise (.memoryFault s.pc 4))) ∨
           (∃ w, s.fetchWord = some w ∧
            ((∃ op, decode w = .unknownOpcode op ∧ step s = .next (s.afterSample.raise (.unknownOpcode op))) ∨
             (decode w = .unknown ∧ step s = .next (s.afterSample.raise .unknownFunct)) ∨
             (∃ i, decode w = .instr i ∧ step s = exec i s.afterSample))))))))) := by
  cases hl : s.cfg.legal with
  | false => exact .inl ⟨rfl, by simp [step, hl]⟩
  | true =>
    refine .inr ⟨rfl, ?_⟩
    cases hr : s.run with
    | halted r => exact .inl ⟨r, rfl, by simp [step, hl, hr]⟩
    | running =>
      refine .inr ⟨rfl, ?_⟩
      cases hs : s.stopSample with
      | true => exact .inl ⟨rfl, by simp [step, hl, hr, State.runningStep, hs]⟩
      | false =>
        have hstep : step s = s.afterSample.fetchDecodeExecute := by simp [step, hl, hr, State.runningStep, hs]
        refine .inr ⟨rfl, ?_⟩
        cases hf : s.fetchWord with
        | none => exact .inl ⟨rfl, by simp [hstep, State.fetchDecodeExecute, hf]⟩
        | some w =>
          refine .inr ⟨w, rfl, ?_⟩
          cases hd : decode w with
          | unknownOpcode op => exact .inl ⟨op, rfl, by simp [hstep, State.fetchDecodeExecute, hf, hd]⟩
          | unknown => exact .inr (.inl ⟨rfl, by simp [hstep, State.fetchDecodeExecute, hf, hd]⟩)
          | instr i => exact .inr (.inr ⟨i, rfl, by simp [hstep, State.fetchDecodeExecute, hf, hd]⟩)

end Sys2Proof.Machine
end

