-- ==== Sys2Proof/Laws/Host.lean ====
section
/-! SUPPORT. What each of the host's operations does. -/

namespace Sys2Proof.Machine

theorem State.beforeFirstStep_iff (s : State) : s.beforeFirstStep = true ↔ s.run = .running ∧ s.icount = 0 := by
  cases hr : s.run <;> simp [State.beforeFirstStep, hr]

/-- A run that has taken a step is never again before its first: the step was counted, or the run is over (R30, R137). -/
theorem step_not_beforeFirstStep {s t : State} (h : step s = .next t) :
    t.cfg.legal = true ∧ t.beforeFirstStep = false := by
  rcases step_cases s with ⟨_, h1⟩ | ⟨hl, ⟨r, hr, h1⟩ | ⟨_, ⟨_, h1⟩ | ⟨_, ⟨_, h1⟩ |
    ⟨w, _, ⟨op, _, h1⟩ | ⟨_, h1⟩ | ⟨i, _, h1⟩⟩⟩⟩⟩ <;> rw [h] at h1
  · cases h1
  · cases h1; exact ⟨hl, by simp [State.beforeFirstStep, hr]⟩
  · cases h1; exact ⟨hl, rfl⟩
  · cases h1; exact ⟨hl, rfl⟩
  · cases h1; exact ⟨hl, rfl⟩
  · cases h1; exact ⟨hl, rfl⟩
  · rcases exec_cases i s.afterSample with ⟨info, _, h2⟩ | ⟨x, mem, p, hh, h2, _⟩ <;> rw [h2] at h1 <;> cases h1
    · exact ⟨hl, rfl⟩
    · refine ⟨hl, ?_⟩
      rw [← Bool.not_eq_true, State.beforeFirstStep_iff]
      exact fun hb => Nat.succ_ne_zero _ hb.2

/-- Every way a load can end (R39, R58, D23; 93 U14, U16, U21, U23). -/
theorem State.loadImage_cases (s : State) (bytes : List Byte) :
    (s.cfg.legal = false ∧ s.loadImage bytes = .refused .illegalConfiguration) ∨
    (s.cfg.legal = true ∧ s.beforeFirstStep = false ∧ s.loadImage bytes = .refused .imageLoadAfterFirstStep) ∨
    (s.cfg.legal = true ∧ s.beforeFirstStep = true ∧ bytes.length ≤ s.cfg.memSize ∧
      s.loadImage bytes = .next { s with mem := s.mem.writeBytes 0 bytes }) ∨
    (s.cfg.legal = true ∧ s.beforeFirstStep = true ∧ s.cfg.memSize < bytes.length ∧
      s.loadImage bytes = .fault (.imageMemoryFault 0 bytes.length)) := by
  unfold State.loadImage
  cases s.cfg.legal <;> cases s.beforeFirstStep <;> simp
  omega

theorem State.disassemble_of_legal (s : State) (h : s.cfg.legal = true) : s.disassemble = .next s.listing := by
  simp [State.disassemble, h]

theorem State.disassemble_of_not_legal (s : State) (h : s.cfg.legal = false) :
    s.disassemble = .refused .illegalConfiguration := by simp [State.disassemble, h]

@[simp] theorem State.length_listing (s : State) : s.listing.length = s.cfg.disasmLimit / 4 := by
  simp [State.listing]

@[simp] theorem State.getElem_listing (s : State) (k : Nat) (h : k < s.listing.length) :
    s.listing[k] = disasmRecord s.mem k := by simp [State.listing]

end Sys2Proof.Machine
end

