-- ==== Sys2Proof/Laws/Operands.lean ====
section
/-! SUPPORT. Operand values as integers, wide reads as sums of bytes (20_memory.md R52, R53, R57, R67; 40_step_cycle.md R136;
47_alu_register.md R220). -/

namespace Sys2Proof.Machine

/-! ### Sums and targets -/

theorem add_u32 (a : Word) (imm : Int) : a + u32 imm = BitVec.ofInt 32 (a.toNat + imm) := by
  unfold u32
  rw [BitVec.ofInt_add]
  simp

theorem State.seqPc_eq (s : State) : s.seqPc = BitVec.ofNat 32 (s.pc.toNat + 4) := by
  apply BitVec.eq_of_toNat_eq
  simp [State.seqPc]

theorem State.relTarget_eq (s : State) (imm : Int) : s.relTarget imm = BitVec.ofInt 32 (s.pc.toNat + imm) :=
  add_u32 s.pc imm

theorem State.effAddr_eq (s : State) (rs1 : Reg) (imm : Int) :
    s.effAddr rs1 imm = BitVec.ofInt 32 ((s.getReg rs1).toNat + imm) := add_u32 (s.getReg rs1) imm

theorem upperImm_eq (imm20 : BitVec 20) : upperImm imm20 = BitVec.ofNat 32 (imm20.toNat * 4096) := by
  apply BitVec.eq_of_toNat_eq
  have h : (upperImm imm20).toNat = imm20.toNat * 2 ^ 12 + (0#12).toNat := toNat_append_eq _ _
  have := imm20.isLt
  rw [h]
  simp
  omega

theorem shiftAmount_eq (v : Word) : shiftAmount v = v.toNat % 32 := by
  unfold shiftAmount
  rw [BitVec.extractLsb'_toNat]
  simp

/-! ### Words and the bytes they are made of -/

theorem readLE_four (m : Memory) (a : Nat) :
    m.readLE a 4 = (m.byteAt a).toNat + 2 ^ 8 * (m.byteAt (a + 1)).toNat + 2 ^ 16 * (m.byteAt (a + 2)).toNat +
      2 ^ 24 * (m.byteAt (a + 3)).toNat := by
  simp only [Memory.readLE]
  ring_nf

theorem wordOfBytes_toNat (b0 b1 b2 b3 : Byte) :
    (wordOfBytes b0 b1 b2 b3).toNat = b0.toNat + 2 ^ 8 * b1.toNat + 2 ^ 16 * b2.toNat + 2 ^ 24 * b3.toNat := by
  have h : (wordOfBytes b0 b1 b2 b3).toNat = ((b3.toNat * 2 ^ 8 + b2.toNat) * 2 ^ 8 + b1.toNat) * 2 ^ 8 + b0.toNat := by
    rw [← toNat_append_eq, ← toNat_append_eq, ← toNat_append_eq]
    rfl
  rw [h]
  ring

theorem wordOfBytes_byteOfWord (v : Word) :
    wordOfBytes (byteOfWord v 0) (byteOfWord v 1) (byteOfWord v 2) (byteOfWord v 3) = v := by
  apply BitVec.eq_of_toNat_eq
  rw [wordOfBytes_toNat]
  simp [byteOfWord, BitVec.extractLsb'_toNat, Nat.shiftRight_eq_div_pow]
  have := v.isLt
  omega

/-- A fetch in range reads the word of the four bytes at `pc` (R133). -/
theorem State.fetchWord_of_le (s : State) (h : s.pc.toNat + 4 ≤ s.cfg.memSize) :
    s.fetchWord = some (wordOfBytes (s.mem.byteAt s.pc.toNat) (s.mem.byteAt (s.pc.toNat + 1))
      (s.mem.byteAt (s.pc.toNat + 2)) (s.mem.byteAt (s.pc.toNat + 3))) := by
  have hb : s.inBounds s.pc 4 = true := by simpa [State.inBounds] using h
  rw [State.fetchWord, State.memRead, if_pos hb]
  simp only [Option.map_some, Option.some.injEq]
  apply BitVec.eq_of_toNat_eq
  rw [wordOfBytes_toNat, BitVec.toNat_ofNat, ← readLE_four]
  have := Memory.readLE_lt s.mem s.pc.toNat 4
  omega

end Sys2Proof.Machine
end

