-- ==== Sys2Proof/Laws/PerInstr.lean ====
section
/-! SUPPORT. Per instruction: the encoding of an instruction has the fixed bits of its row of the opcode table, whatever its
operands (30_encoding.md R98, R108). -/

namespace Sys2Proof.Laws

/-- The word of `i` carries the mask and match of its row. -/
def EncodeFitsRow.Statement (i : Instr) : Prop := encode i &&& i.mnemonic.mask = i.mnemonic.matchWord

/-- A row that fixes the opcode alone. -/
theorem fits_7F (w : Word) (op : BitVec 7) (h : opcodeOf w = op) : w &&& 0x0000007F#32 = (0#25 ++ op : BitVec 32) := by
  rw [and_mask_7F, h]

/-- A row that fixes the opcode and funct3. -/
theorem fits_707F (w : Word) (op : BitVec 7) (f3 : BitVec 3) (h : opcodeOf w = op) (h3 : funct3Of w = f3) :
    w &&& 0x0000707F#32 = (0#17 ++ f3 ++ 0#5 ++ op : BitVec 32) := by
  rw [and_mask_707F, h, h3]

/-- A row that fixes the opcode, funct3 and funct7. -/
theorem fits_FE00707F (w : Word) (op : BitVec 7) (f3 : BitVec 3) (f7 : BitVec 7) (h : opcodeOf w = op)
    (h3 : funct3Of w = f3) (h7 : funct7Of w = f7) :
    w &&& 0xFE00707F#32 = (f7 ++ 0#10 ++ f3 ++ 0#5 ++ op : BitVec 32) := by
  rw [and_mask_FE00707F, h, h3, h7]

theorem EncodeFitsRow.lui (rd : Reg) (imm20 : BitVec 20) : EncodeFitsRow.Statement (Instr.lui rd imm20) :=
  fits_7F _ _ (opcodeOf_encodeU _ _ _)

theorem EncodeFitsRow.auipc (rd : Reg) (imm20 : BitVec 20) : EncodeFitsRow.Statement (Instr.auipc rd imm20) :=
  fits_7F _ _ (opcodeOf_encodeU _ _ _)

theorem EncodeFitsRow.jal (rd : Reg) (imm : Int) : EncodeFitsRow.Statement (Instr.jal rd imm) :=
  fits_7F _ _ (opcodeOf_encodeJ _ _ _)

theorem EncodeFitsRow.jalr (rd rs1 : Reg) (imm : Int) : EncodeFitsRow.Statement (Instr.jalr rd rs1 imm) :=
  fits_707F _ _ _ (opcodeOf_encodeI _ _ _ _ _) (funct3Of_encodeI _ _ _ _ _)

theorem EncodeFitsRow.beq (rs1 rs2 : Reg) (imm : Int) : EncodeFitsRow.Statement (Instr.beq rs1 rs2 imm) :=
  fits_707F _ _ _ (opcodeOf_encodeB _ _ _ _ _) (funct3Of_encodeB _ _ _ _ _)

theorem EncodeFitsRow.bne (rs1 rs2 : Reg) (imm : Int) : EncodeFitsRow.Statement (Instr.bne rs1 rs2 imm) :=
  fits_707F _ _ _ (opcodeOf_encodeB _ _ _ _ _) (funct3Of_encodeB _ _ _ _ _)

theorem EncodeFitsRow.blt (rs1 rs2 : Reg) (imm : Int) : EncodeFitsRow.Statement (Instr.blt rs1 rs2 imm) :=
  fits_707F _ _ _ (opcodeOf_encodeB _ _ _ _ _) (funct3Of_encodeB _ _ _ _ _)

theorem EncodeFitsRow.bge (rs1 rs2 : Reg) (imm : Int) : EncodeFitsRow.Statement (Instr.bge rs1 rs2 imm) :=
  fits_707F _ _ _ (opcodeOf_encodeB _ _ _ _ _) (funct3Of_encodeB _ _ _ _ _)

theorem EncodeFitsRow.bltu (rs1 rs2 : Reg) (imm : Int) : EncodeFitsRow.Statement (Instr.bltu rs1 rs2 imm) :=
  fits_707F _ _ _ (opcodeOf_encodeB _ _ _ _ _) (funct3Of_encodeB _ _ _ _ _)

theorem EncodeFitsRow.bgeu (rs1 rs2 : Reg) (imm : Int) : EncodeFitsRow.Statement (Instr.bgeu rs1 rs2 imm) :=
  fits_707F _ _ _ (opcodeOf_encodeB _ _ _ _ _) (funct3Of_encodeB _ _ _ _ _)

theorem EncodeFitsRow.lb (rd rs1 : Reg) (imm : Int) : EncodeFitsRow.Statement (Instr.lb rd rs1 imm) :=
  fits_707F _ _ _ (opcodeOf_encodeI _ _ _ _ _) (funct3Of_encodeI _ _ _ _ _)

theorem EncodeFitsRow.lh (rd rs1 : Reg) (imm : Int) : EncodeFitsRow.Statement (Instr.lh rd rs1 imm) :=
  fits_707F _ _ _ (opcodeOf_encodeI _ _ _ _ _) (funct3Of_encodeI _ _ _ _ _)

theorem EncodeFitsRow.lw (rd rs1 : Reg) (imm : Int) : EncodeFitsRow.Statement (Instr.lw rd rs1 imm) :=
  fits_707F _ _ _ (opcodeOf_encodeI _ _ _ _ _) (funct3Of_encodeI _ _ _ _ _)

theorem EncodeFitsRow.lbu (rd rs1 : Reg) (imm : Int) : EncodeFitsRow.Statement (Instr.lbu rd rs1 imm) :=
  fits_707F _ _ _ (opcodeOf_encodeI _ _ _ _ _) (funct3Of_encodeI _ _ _ _ _)

theorem EncodeFitsRow.lhu (rd rs1 : Reg) (imm : Int) : EncodeFitsRow.Statement (Instr.lhu rd rs1 imm) :=
  fits_707F _ _ _ (opcodeOf_encodeI _ _ _ _ _) (funct3Of_encodeI _ _ _ _ _)

theorem EncodeFitsRow.sb (rs2 rs1 : Reg) (imm : Int) : EncodeFitsRow.Statement (Instr.sb rs2 rs1 imm) :=
  fits_707F _ _ _ (opcodeOf_encodeS _ _ _ _ _) (funct3Of_encodeS _ _ _ _ _)

theorem EncodeFitsRow.sh (rs2 rs1 : Reg) (imm : Int) : EncodeFitsRow.Statement (Instr.sh rs2 rs1 imm) :=
  fits_707F _ _ _ (opcodeOf_encodeS _ _ _ _ _) (funct3Of_encodeS _ _ _ _ _)

theorem EncodeFitsRow.sw (rs2 rs1 : Reg) (imm : Int) : EncodeFitsRow.Statement (Instr.sw rs2 rs1 imm) :=
  fits_707F _ _ _ (opcodeOf_encodeS _ _ _ _ _) (funct3Of_encodeS _ _ _ _ _)

theorem EncodeFitsRow.addi (rd rs1 : Reg) (imm : Int) : EncodeFitsRow.Statement (Instr.addi rd rs1 imm) :=
  fits_707F _ _ _ (opcodeOf_encodeI _ _ _ _ _) (funct3Of_encodeI _ _ _ _ _)

theorem EncodeFitsRow.slti (rd rs1 : Reg) (imm : Int) : EncodeFitsRow.Statement (Instr.slti rd rs1 imm) :=
  fits_707F _ _ _ (opcodeOf_encodeI _ _ _ _ _) (funct3Of_encodeI _ _ _ _ _)

theorem EncodeFitsRow.sltiu (rd rs1 : Reg) (imm : Int) : EncodeFitsRow.Statement (Instr.sltiu rd rs1 imm) :=
  fits_707F _ _ _ (opcodeOf_encodeI _ _ _ _ _) (funct3Of_encodeI _ _ _ _ _)

theorem EncodeFitsRow.xori (rd rs1 : Reg) (imm : Int) : EncodeFitsRow.Statement (Instr.xori rd rs1 imm) :=
  fits_707F _ _ _ (opcodeOf_encodeI _ _ _ _ _) (funct3Of_encodeI _ _ _ _ _)

theorem EncodeFitsRow.ori (rd rs1 : Reg) (imm : Int) : EncodeFitsRow.Statement (Instr.ori rd rs1 imm) :=
  fits_707F _ _ _ (opcodeOf_encodeI _ _ _ _ _) (funct3Of_encodeI _ _ _ _ _)

theorem EncodeFitsRow.andi (rd rs1 : Reg) (imm : Int) : EncodeFitsRow.Statement (Instr.andi rd rs1 imm) :=
  fits_707F _ _ _ (opcodeOf_encodeI _ _ _ _ _) (funct3Of_encodeI _ _ _ _ _)

theorem EncodeFitsRow.slli (rd rs1 : Reg) (shamt : Fin 32) : EncodeFitsRow.Statement (Instr.slli rd rs1 shamt) :=
  fits_FE00707F _ _ _ _ (opcodeOf_encodeR _ _ _ _ _ _) (funct3Of_encodeR _ _ _ _ _ _)
    (funct7Of_encodeR _ _ _ _ _ _)

theorem EncodeFitsRow.srli (rd rs1 : Reg) (shamt : Fin 32) : EncodeFitsRow.Statement (Instr.srli rd rs1 shamt) :=
  fits_FE00707F _ _ _ _ (opcodeOf_encodeR _ _ _ _ _ _) (funct3Of_encodeR _ _ _ _ _ _)
    (funct7Of_encodeR _ _ _ _ _ _)

theorem EncodeFitsRow.srai (rd rs1 : Reg) (shamt : Fin 32) : EncodeFitsRow.Statement (Instr.srai rd rs1 shamt) :=
  fits_FE00707F _ _ _ _ (opcodeOf_encodeR _ _ _ _ _ _) (funct3Of_encodeR _ _ _ _ _ _)
    (funct7Of_encodeR _ _ _ _ _ _)

theorem EncodeFitsRow.add (rd rs1 rs2 : Reg) : EncodeFitsRow.Statement (Instr.add rd rs1 rs2) :=
  fits_FE00707F _ _ _ _ (opcodeOf_encodeR _ _ _ _ _ _) (funct3Of_encodeR _ _ _ _ _ _)
    (funct7Of_encodeR _ _ _ _ _ _)

theorem EncodeFitsRow.sub (rd rs1 rs2 : Reg) : EncodeFitsRow.Statement (Instr.sub rd rs1 rs2) :=
  fits_FE00707F _ _ _ _ (opcodeOf_encodeR _ _ _ _ _ _) (funct3Of_encodeR _ _ _ _ _ _)
    (funct7Of_encodeR _ _ _ _ _ _)

theorem EncodeFitsRow.sll (rd rs1 rs2 : Reg) : EncodeFitsRow.Statement (Instr.sll rd rs1 rs2) :=
  fits_FE00707F _ _ _ _ (opcodeOf_encodeR _ _ _ _ _ _) (funct3Of_encodeR _ _ _ _ _ _)
    (funct7Of_encodeR _ _ _ _ _ _)

theorem EncodeFitsRow.slt (rd rs1 rs2 : Reg) : EncodeFitsRow.Statement (Instr.slt rd rs1 rs2) :=
  fits_FE00707F _ _ _ _ (opcodeOf_encodeR _ _ _ _ _ _) (funct3Of_encodeR _ _ _ _ _ _)
    (funct7Of_encodeR _ _ _ _ _ _)

theorem EncodeFitsRow.sltu (rd rs1 rs2 : Reg) : EncodeFitsRow.Statement (Instr.sltu rd rs1 rs2) :=
  fits_FE00707F _ _ _ _ (opcodeOf_encodeR _ _ _ _ _ _) (funct3Of_encodeR _ _ _ _ _ _)
    (funct7Of_encodeR _ _ _ _ _ _)

theorem EncodeFitsRow.xor (rd rs1 rs2 : Reg) : EncodeFitsRow.Statement (Instr.xor rd rs1 rs2) :=
  fits_FE00707F _ _ _ _ (opcodeOf_encodeR _ _ _ _ _ _) (funct3Of_encodeR _ _ _ _ _ _)
    (funct7Of_encodeR _ _ _ _ _ _)

theorem EncodeFitsRow.srl (rd rs1 rs2 : Reg) : EncodeFitsRow.Statement (Instr.srl rd rs1 rs2) :=
  fits_FE00707F _ _ _ _ (opcodeOf_encodeR _ _ _ _ _ _) (funct3Of_encodeR _ _ _ _ _ _)
    (funct7Of_encodeR _ _ _ _ _ _)

theorem EncodeFitsRow.sra (rd rs1 rs2 : Reg) : EncodeFitsRow.Statement (Instr.sra rd rs1 rs2) :=
  fits_FE00707F _ _ _ _ (opcodeOf_encodeR _ _ _ _ _ _) (funct3Of_encodeR _ _ _ _ _ _)
    (funct7Of_encodeR _ _ _ _ _ _)

theorem EncodeFitsRow.or (rd rs1 rs2 : Reg) : EncodeFitsRow.Statement (Instr.or rd rs1 rs2) :=
  fits_FE00707F _ _ _ _ (opcodeOf_encodeR _ _ _ _ _ _) (funct3Of_encodeR _ _ _ _ _ _)
    (funct7Of_encodeR _ _ _ _ _ _)

theorem EncodeFitsRow.and (rd rs1 rs2 : Reg) : EncodeFitsRow.Statement (Instr.and rd rs1 rs2) :=
  fits_FE00707F _ _ _ _ (opcodeOf_encodeR _ _ _ _ _ _) (funct3Of_encodeR _ _ _ _ _ _)
    (funct7Of_encodeR _ _ _ _ _ _)

theorem EncodeFitsRow.mul (rd rs1 rs2 : Reg) : EncodeFitsRow.Statement (Instr.mul rd rs1 rs2) :=
  fits_FE00707F _ _ _ _ (opcodeOf_encodeR _ _ _ _ _ _) (funct3Of_encodeR _ _ _ _ _ _)
    (funct7Of_encodeR _ _ _ _ _ _)

theorem EncodeFitsRow.div (rd rs1 rs2 : Reg) : EncodeFitsRow.Statement (Instr.div rd rs1 rs2) :=
  fits_FE00707F _ _ _ _ (opcodeOf_encodeR _ _ _ _ _ _) (funct3Of_encodeR _ _ _ _ _ _)
    (funct7Of_encodeR _ _ _ _ _ _)

theorem EncodeFitsRow.divu (rd rs1 rs2 : Reg) : EncodeFitsRow.Statement (Instr.divu rd rs1 rs2) :=
  fits_FE00707F _ _ _ _ (opcodeOf_encodeR _ _ _ _ _ _) (funct3Of_encodeR _ _ _ _ _ _)
    (funct7Of_encodeR _ _ _ _ _ _)

theorem EncodeFitsRow.rem (rd rs1 rs2 : Reg) : EncodeFitsRow.Statement (Instr.rem rd rs1 rs2) :=
  fits_FE00707F _ _ _ _ (opcodeOf_encodeR _ _ _ _ _ _) (funct3Of_encodeR _ _ _ _ _ _)
    (funct7Of_encodeR _ _ _ _ _ _)

theorem EncodeFitsRow.remu (rd rs1 rs2 : Reg) : EncodeFitsRow.Statement (Instr.remu rd rs1 rs2) :=
  fits_FE00707F _ _ _ _ (opcodeOf_encodeR _ _ _ _ _ _) (funct3Of_encodeR _ _ _ _ _ _)
    (funct7Of_encodeR _ _ _ _ _ _)

theorem EncodeFitsRow.ecall : EncodeFitsRow.Statement (Instr.ecall) :=
  rfl

theorem EncodeFitsRow.ebreak : EncodeFitsRow.Statement (Instr.ebreak) :=
  rfl

theorem EncodeFitsRow.fence : EncodeFitsRow.Statement (Instr.fence) :=
  rfl

theorem EncodeFitsRow.fenceI : EncodeFitsRow.Statement (Instr.fenceI) :=
  rfl

theorem EncodeFitsRow.csrrw (rd : Reg) (csr : BitVec 12) (rs1 : Reg) : EncodeFitsRow.Statement (Instr.csrrw rd csr rs1) :=
  fits_707F _ _ _ (opcodeOf_encodeI _ _ _ _ _) (funct3Of_encodeI _ _ _ _ _)

theorem EncodeFitsRow.csrrs (rd : Reg) (csr : BitVec 12) (rs1 : Reg) : EncodeFitsRow.Statement (Instr.csrrs rd csr rs1) :=
  fits_707F _ _ _ (opcodeOf_encodeI _ _ _ _ _) (funct3Of_encodeI _ _ _ _ _)

theorem EncodeFitsRow.csrrc (rd : Reg) (csr : BitVec 12) (rs1 : Reg) : EncodeFitsRow.Statement (Instr.csrrc rd csr rs1) :=
  fits_707F _ _ _ (opcodeOf_encodeI _ _ _ _ _) (funct3Of_encodeI _ _ _ _ _)

theorem EncodeFitsRow.csrrwi (rd : Reg) (csr : BitVec 12) (uimm : Fin 32) : EncodeFitsRow.Statement (Instr.csrrwi rd csr uimm) :=
  fits_707F _ _ _ (opcodeOf_encodeI _ _ _ _ _) (funct3Of_encodeI _ _ _ _ _)

theorem EncodeFitsRow.csrrsi (rd : Reg) (csr : BitVec 12) (uimm : Fin 32) : EncodeFitsRow.Statement (Instr.csrrsi rd csr uimm) :=
  fits_707F _ _ _ (opcodeOf_encodeI _ _ _ _ _) (funct3Of_encodeI _ _ _ _ _)

theorem EncodeFitsRow.csrrci (rd : Reg) (csr : BitVec 12) (uimm : Fin 32) : EncodeFitsRow.Statement (Instr.csrrci rd csr uimm) :=
  fits_707F _ _ _ (opcodeOf_encodeI _ _ _ _ _) (funct3Of_encodeI _ _ _ _ _)

end Sys2Proof.Laws
end

