-- ==== Sys2Proof/Tests/Slice0.lean ====
section
/-! SUPPORT. The model's own tests: ill-formed terms refused, every constructor's decoding from a word written out from the
spec's encoding, single steps with the spec's own expected values (95_test_vectors.md, 96_test_vectors_families.md), and a
witness for the hypotheses of each statement. Every expected value is the spec's. -/

namespace Sys2Proof.Machine.Tests

/-! ### Helpers -/

/-- Registers set, one by one. -/
def withRegs (regs : List (Reg × Word)) (s : State) : State := regs.foldl (fun t p => t.setReg p.1 p.2) s

/-- The start state of the spec's vectors: reset, `pc = 0x100`, the word at `pc`. -/
def at100 (regs : List (Reg × Word)) (w : Word) : State :=
  withRegs regs (State.withWordAtPc { State.reset with pc := 0x100#32 } w)

/-- The same with the memory of section 2.5. -/
def loadState (regs : List (Reg × Word)) (w : Word) : State :=
  let s := at100 regs w
  { s with mem := s.mem.writeBytes 0x200 [0xEF#8, 0xBE#8, 0xAD#8, 0xDE#8, 0x7F#8, 0x80#8] }

/-- One step commits, leaves exactly these registers changed and no memory byte, and goes to `pc`. -/
def goesTo (s : State) (pc : Word) (regs : List (Reg × Word)) (run : RunState) : Bool :=
  match step s with
  | .next t => t == { withRegs regs s with
      pc := pc, icount := s.icount + 1, run := run, trace := t.trace, stops := s.stops.tail }
  | .fault _ => false
  | .refused _ => false

/-- One step commits, leaves exactly these bytes stored and no register changed, and falls through. -/
def stores (s : State) (a : Nat) (bytes : List Byte) : Bool :=
  match step s with
  | .next t => t == { s with
      mem := s.mem.writeBytes a bytes, pc := s.pc + 4#32, icount := s.icount + 1, trace := t.trace, stops := s.stops.tail }
  | .fault _ => false
  | .refused _ => false

/-- One step is fault entry, with this diagnostic, and changes nothing else. -/
def faults (s : State) (word : Option Word) (info : FaultInfo) : Bool :=
  match step s with
  | .next t => t == { s with run := .halted (.fault ⟨s.pc, word, info⟩), stops := s.stops.tail }
  | .fault _ => false
  | .refused _ => false

/-- The state after one step, or the state itself. -/
def after (s : State) : State :=
  match step s with
  | .next t => t
  | .fault _ => s
  | .refused _ => s

/-- The state after one instruction, or the state itself. -/
def afterExec (i : Instr) (s : State) : State :=
  match exec i s with
  | .next t => t
  | .fault _ => s
  | .refused _ => s

/-- `s` with other parameters. -/
def withCfg (c : Config) (s : State) : State := { s with cfg := c }

/-- The smallest legal machine (R6, D29). -/
def tinyCfg : Config := { Config.default with memSize := 4, disasmLimit := 4 }

/-! ### WellFormed: every check refuses an ill-formed term (R89 to R93, R107) -/

theorem test_wf_iImmediate :
    (Instr.addi 5 6 2048).wellFormed = false ∧ (Instr.addi 5 6 (-2049)).wellFormed = false ∧
    (Instr.addi 5 6 2047).wellFormed = true ∧ (Instr.lw 6 5 (-2048)).wellFormed = true ∧
    (Instr.lw 6 5 2048).wellFormed = false ∧ (Instr.jalr 1 5 2048).wellFormed = false ∧
    (Instr.sw 6 5 (-2049)).wellFormed = false := by decide

theorem test_wf_bImmediate :
    (Instr.beq 1 2 3).wellFormed = false ∧ (Instr.bgeu 1 2 4096).wellFormed = false ∧
    (Instr.blt 1 2 (-4098)).wellFormed = false ∧ (Instr.bne 1 2 4094).wellFormed = true ∧
    (Instr.bge 1 2 (-4096)).wellFormed = true := by decide

theorem test_wf_jImmediate :
    (Instr.jal 1 1).wellFormed = false ∧ (Instr.jal 1 1048576).wellFormed = false ∧
    (Instr.jal 1 (-1048578)).wellFormed = false ∧ (Instr.jal 1 1048574).wellFormed = true ∧
    (Instr.jal 1 (-1048576)).wellFormed = true := by decide

/-! ### Decoding, one word bit by bit for each format (R83 to R98) -/

/-- R-type: funct7, rs2, rs1, funct3, rd, opcode. -/
theorem test_decode_rType : decode 0b0000000_11101_11110_000_11111_0110011#32 = .instr (.add 31 30 29) := by decide

/-- I-type: imm[11:0], rs1, funct3, rd, opcode. -/
theorem test_decode_iType : decode 0b100000000000_00110_000_00101_0010011#32 = .instr (.addi 5 6 (-2048)) := by decide

/-- S-type: imm[11:5], rs2, rs1, funct3, imm[4:0], opcode. -/
theorem test_decode_sType : decode 0b0000001_00111_00110_010_00000_0100011#32 = .instr (.sw 7 6 32) ∧
    decode 0b0000000_00111_00110_010_11111_0100011#32 = .instr (.sw 7 6 31) := by decide

/-- B-type: imm[12], imm[10:5], rs2, rs1, funct3, imm[4:1], imm[11], opcode. -/
theorem test_decode_bType : decode 0b1_000000_00010_00001_000_0000_0_1100011#32 = .instr (.beq 1 2 (-4096)) ∧
    decode 0b0_000000_00010_00001_000_0000_1_1100011#32 = .instr (.beq 1 2 2048) ∧
    decode 0b0_000001_00010_00001_000_0000_0_1100011#32 = .instr (.beq 1 2 32) ∧
    decode 0b0_000000_00010_00001_000_0001_0_1100011#32 = .instr (.beq 1 2 2) := by decide

/-- U-type: imm[31:12], rd, opcode. -/
theorem test_decode_uType : decode 0b10000000000000000000_00101_0110111#32 = .instr (.lui 5 0x80000#20) := by decide

/-- J-type: imm[20], imm[10:1], imm[11], imm[19:12], rd, opcode. -/
theorem test_decode_jType : decode 0b1_0000000000_0_00000000_00001_1101111#32 = .instr (.jal 1 (-1048576)) ∧
    decode 0b0_0000000000_1_00000000_00001_1101111#32 = .instr (.jal 1 2048) ∧
    decode 0b0_0000000000_0_00000001_00001_1101111#32 = .instr (.jal 1 4096) ∧
    decode 0b0_0000000001_0_00000000_00001_1101111#32 = .instr (.jal 1 2) := by decide

/-! ### Decoding, one word for every constructor (96_test_vectors_families.md) -/

theorem test_decode_familyUpper :
    decode 0x000012B7#32 = .instr (.lui 5 0x1#20) ∧
    decode 0x00000297#32 = .instr (.auipc 5 0x0#20) := by decide

theorem test_decode_familyJump :
    decode 0xE01FF0EF#32 = .instr (.jal 1 (-512)) ∧
    decode 0xFFF280E7#32 = .instr (.jalr 1 5 (-1)) := by decide

theorem test_decode_familyBranch :
    decode 0x80208063#32 = .instr (.beq 1 2 (-4096)) ∧
    decode 0xFE031CE3#32 = .instr (.bne 6 0 (-8)) ∧
    decode 0x0030C463#32 = .instr (.blt 1 3 8) ∧
    decode 0xFE02D8E3#32 = .instr (.bge 5 0 (-16)) ∧
    decode 0x0030E463#32 = .instr (.bltu 1 3 8) ∧
    decode 0xFE02F8E3#32 = .instr (.bgeu 5 0 (-16)) := by decide

theorem test_decode_familyLoad :
    decode 0xFFF00303#32 = .instr (.lb 6 0 (-1)) ∧
    decode 0x00029303#32 = .instr (.lh 6 5 0) ∧
    decode 0xFFC2A303#32 = .instr (.lw 6 5 (-4)) ∧
    decode 0x0002C303#32 = .instr (.lbu 6 5 0) ∧
    decode 0x0002D303#32 = .instr (.lhu 6 5 0) := by decide

theorem test_decode_familyStore :
    decode 0x00628023#32 = .instr (.sb 6 5 0) ∧
    decode 0xFE629FA3#32 = .instr (.sh 6 5 (-1)) ∧
    decode 0x8062A023#32 = .instr (.sw 6 5 (-2048)) := by decide

theorem test_decode_familyAluImm :
    decode 0x80030293#32 = .instr (.addi 5 6 (-2048)) ∧
    decode 0xFFF32293#32 = .instr (.slti 5 6 (-1)) ∧
    decode 0xFFF33293#32 = .instr (.sltiu 5 6 (-1)) ∧
    decode 0xFFF34293#32 = .instr (.xori 5 6 (-1)) ∧
    decode 0x80036293#32 = .instr (.ori 5 6 (-2048)) ∧
    decode 0xF0037293#32 = .instr (.andi 5 6 (-256)) ∧
    decode 0x00431293#32 = .instr (.slli 5 6 4) ∧
    decode 0x00435293#32 = .instr (.srli 5 6 4) ∧
    decode 0x40435293#32 = .instr (.srai 5 6 4) := by decide

theorem test_decode_familyAluReg :
    decode 0x007302B3#32 = .instr (.add 5 6 7) ∧
    decode 0x407302B3#32 = .instr (.sub 5 6 7) ∧
    decode 0x007312B3#32 = .instr (.sll 5 6 7) ∧
    decode 0x007322B3#32 = .instr (.slt 5 6 7) ∧
    decode 0x007332B3#32 = .instr (.sltu 5 6 7) ∧
    decode 0x007342B3#32 = .instr (.xor 5 6 7) ∧
    decode 0x007352B3#32 = .instr (.srl 5 6 7) ∧
    decode 0x407352B3#32 = .instr (.sra 5 6 7) ∧
    decode 0x007362B3#32 = .instr (.or 5 6 7) ∧
    decode 0x007372B3#32 = .instr (.and 5 6 7) := by decide

theorem test_decode_familyMulDiv :
    decode 0x02B50633#32 = .instr (.mul 12 10 11) ∧
    decode 0x02B546B3#32 = .instr (.div 13 10 11) ∧
    decode 0x027352B3#32 = .instr (.divu 5 6 7) ∧
    decode 0x02B56733#32 = .instr (.rem 14 10 11) ∧
    decode 0x027372B3#32 = .instr (.remu 5 6 7) := by decide

theorem test_decode_familySystem :
    decode 0x00000073#32 = .instr .ecall ∧
    decode 0x00100073#32 = .instr .ebreak ∧
    decode 0x0000000F#32 = .instr .fence ∧
    decode 0x0000100F#32 = .instr .fenceI ∧
    decode 0x305312F3#32 = .instr (.csrrw 5 0x305#12 6) ∧
    decode 0xC00022F3#32 = .instr (.csrrs 5 0xc00#12 0) ∧
    decode 0x3003B073#32 = .instr (.csrrc 0 0x300#12 7) ∧
    decode 0x340FD2F3#32 = .instr (.csrrwi 5 0x340#12 31) ∧
    decode 0x30046073#32 = .instr (.csrrsi 0 0x300#12 8) ∧
    decode 0xFFF072F3#32 = .instr (.csrrci 5 0xfff#12 0) := by decide

/-! ### Words that are not instructions (30_encoding.md R101, R102) -/

theorem test_notInstructions_unknownOpcode :
    decode 0x00000000#32 = .unknownOpcode 0x00#7 ∧ decode 0xFFFFFFFF#32 = .unknownOpcode 0x7F#7 ∧
    decode 0x00000001#32 = .unknownOpcode 0x01#7 ∧ decode 0x0000007B#32 = .unknownOpcode 0x7B#7 := by decide

theorem test_notInstructions_unknown :
    decode 0x00001067#32 = .unknown ∧ decode 0x00002063#32 = .unknown ∧ decode 0x00003003#32 = .unknown ∧
    decode 0x00003023#32 = .unknown ∧ decode 0x02031293#32 = .unknown ∧ decode 0x20035293#32 = .unknown ∧
    decode 0x407312B3#32 = .unknown ∧ decode 0x027312B3#32 = .unknown ∧ decode 0x0000200F#32 = .unknown ∧
    decode 0x000000F3#32 = .unknown ∧ decode 0x30200073#32 = .unknown ∧ decode 0x00004073#32 = .unknown := by decide

/-- S1 of 95 section 1: `opcode` is the low seven bits. -/
theorem test_opcode_lowBits :
    opcodeOf 0xDEADBEEF#32 = 0x6F#7 ∧ opcodeOf 0x12345678#32 = 0x78#7 ∧ opcodeOf 0xFFFFFF80#32 = 0x00#7 ∧
    opcodeOf 0x0000007F#32 = 0x7F#7 := by decide

/-- Every format's fields cover bits 31 to 0, each once, in order (R83 to R88). -/
theorem test_layout_tilesTheWord :
    ∀ f ∈ [Format.r, .i, .s, .b, .u, .j],
      f.layout.foldl (fun next r => if r.hi = next ∧ r.lo ≤ r.hi then (r.lo : Int) - 1 else -2) (31 : Int) = -1 := by
  decide

/-! ### One instruction, one step -/

theorem test_lui :
    goesTo (at100 [] 0xABCDE137#32) 0x104#32 [(2, 0xABCDE000#32)] .running = true ∧
    goesTo (at100 [] 0x12345037#32) 0x104#32 [] .running = true := by
  decide

theorem test_auipc :
    goesTo (at100 [] 0x00001297#32) 0x104#32 [(5, 0x00001100#32)] .running = true ∧
    goesTo (at100 [] 0xFFFFF297#32) 0x104#32 [(5, 0xFFFFF100#32)] .running = true := by
  decide

theorem test_jal :
    goesTo (at100 [] 0x00C000EF#32) 0x10C#32 [(1, 0x00000104#32)] .running = true ∧
    goesTo (at100 [] 0xE01FF0EF#32) 0xFFFFFF00#32 [(1, 0x00000104#32)] .running = true := by
  decide

theorem test_jalr :
    goesTo (at100 [(1, 0x00000300#32)] 0x000080E7#32) 0x300#32 [(1, 0x00000104#32)] .running = true ∧
    goesTo (at100 [(5, 0x00000200#32)] 0x001280E7#32) 0x201#32 [(1, 0x00000104#32)] .running = true := by
  decide

theorem test_beq :
    goesTo (at100 [] 0x00108463#32) 0x108#32 [] .running = true ∧
    goesTo (at100 [] 0x00208463#32) 0x104#32 [] .running = true := by
  decide

theorem test_bne :
    goesTo (at100 [(1, 0x00000005#32), (3, 0x00000005#32)] 0x00309463#32) 0x104#32 [] .running = true ∧
    goesTo (at100 [(1, 0xFFFFFFFF#32), (3, 0x00000001#32)] 0x00309463#32) 0x108#32 [] .running = true := by
  decide

theorem test_blt :
    goesTo (at100 [(1, 0x80000000#32), (3, 0x7FFFFFFF#32)] 0x0030C463#32) 0x108#32 [] .running = true ∧
    goesTo (at100 [(1, 0x00000001#32), (3, 0xFFFFFFFF#32)] 0x0030C463#32) 0x104#32 [] .running = true := by
  decide

theorem test_bge :
    goesTo (at100 [(1, 0x00000005#32), (3, 0x00000005#32)] 0x0030D463#32) 0x108#32 [] .running = true ∧
    goesTo (at100 [(1, 0x80000000#32), (3, 0x00000000#32)] 0x0030D463#32) 0x104#32 [] .running = true := by
  decide

theorem test_bltu :
    goesTo (at100 [(1, 0x00000001#32), (3, 0xFFFFFFFF#32)] 0x0030E463#32) 0x108#32 [] .running = true ∧
    goesTo (at100 [(1, 0x80000000#32), (3, 0x7FFFFFFF#32)] 0x0030E463#32) 0x104#32 [] .running = true := by
  decide

theorem test_bgeu :
    goesTo (at100 [(5, 0x80000000#32)] 0xFE02F8E3#32) 0xF0#32 [] .running = true ∧
    goesTo (at100 [(1, 0x00000000#32), (3, 0x80000000#32)] 0x0030F463#32) 0x104#32 [] .running = true := by
  decide

theorem test_addi :
    goesTo (at100 [(6, 0xFFFFFFFF#32)] 0x00130293#32) 0x104#32 [(5, 0x00000000#32)] .running = true ∧
    goesTo (at100 [] 0xFFF00093#32) 0x104#32 [(1, 0xFFFFFFFF#32)] .running = true := by
  decide

theorem test_slti :
    goesTo (at100 [(6, 0x000007FE#32)] 0x7FF32293#32) 0x104#32 [(5, 0x00000001#32)] .running = true := by
  decide

theorem test_sltiu :
    goesTo (at100 [(6, 0xFFFFFFFE#32)] 0xFFF33293#32) 0x104#32 [(5, 0x00000001#32)] .running = true ∧
    goesTo (at100 [(6, 0xFFFFFFFF#32)] 0xFFF33293#32) 0x104#32 [(5, 0x00000000#32)] .running = true := by
  decide

theorem test_xori :
    goesTo (at100 [(6, 0x12345678#32)] 0xFFF34293#32) 0x104#32 [(5, 0xEDCBA987#32)] .running = true := by
  decide

theorem test_ori :
    goesTo (at100 [(6, 0x00000001#32)] 0x80036293#32) 0x104#32 [(5, 0xFFFFF801#32)] .running = true := by
  decide

theorem test_andi :
    goesTo (at100 [(6, 0x12345678#32)] 0xF0037293#32) 0x104#32 [(5, 0x12345600#32)] .running = true := by
  decide

theorem test_slli :
    goesTo (at100 [(6, 0x80000001#32)] 0x00131293#32) 0x104#32 [(5, 0x00000002#32)] .running = true ∧
    goesTo (at100 [(6, 0xFFFFFFFF#32)] 0x01F31293#32) 0x104#32 [(5, 0x80000000#32)] .running = true := by
  decide

theorem test_srli :
    goesTo (at100 [(6, 0xF2345678#32)] 0x00435293#32) 0x104#32 [(5, 0x0F234567#32)] .running = true := by
  decide

theorem test_srai :
    goesTo (at100 [(6, 0xF2345678#32)] 0x40435293#32) 0x104#32 [(5, 0xFF234567#32)] .running = true ∧
    goesTo (at100 [(6, 0x7FFFFFFF#32)] 0x41F35293#32) 0x104#32 [(5, 0x00000000#32)] .running = true := by
  decide

theorem test_add :
    goesTo (at100 [(6, 0x7FFFFFFF#32), (7, 0x00000001#32)] 0x007302B3#32) 0x104#32 [(5, 0x80000000#32)] .running = true ∧
    goesTo (at100 [(6, 0x00000003#32), (7, 0x00000004#32)] 0x00730033#32) 0x104#32 [] .running = true := by
  decide

theorem test_sub :
    goesTo (at100 [(6, 0x00000000#32), (7, 0x00000001#32)] 0x407302B3#32) 0x104#32 [(5, 0xFFFFFFFF#32)] .running = true ∧
    goesTo (at100 [(6, 0x0000000A#32), (7, 0x00000003#32)] 0x407302B3#32) 0x104#32 [(5, 0x00000007#32)] .running = true := by
  decide

theorem test_sll :
    goesTo (at100 [(6, 0x00000001#32), (7, 0xFFFFFFE4#32)] 0x007312B3#32) 0x104#32 [(5, 0x00000010#32)] .running = true := by
  decide

theorem test_slt :
    goesTo (at100 [(6, 0xFFFFFFFF#32), (7, 0x00000000#32)] 0x007322B3#32) 0x104#32 [(5, 0x00000001#32)] .running = true ∧
    goesTo (at100 [(6, 0x00000000#32), (7, 0xFFFFFFFF#32)] 0x007322B3#32) 0x104#32 [(5, 0x00000000#32)] .running = true := by
  decide

theorem test_sltu :
    goesTo (at100 [(6, 0xFFFFFFFF#32), (7, 0x00000000#32)] 0x007332B3#32) 0x104#32 [(5, 0x00000000#32)] .running = true ∧
    goesTo (at100 [(6, 0x00000000#32), (7, 0xFFFFFFFF#32)] 0x007332B3#32) 0x104#32 [(5, 0x00000001#32)] .running = true := by
  decide

theorem test_xor :
    goesTo (at100 [(6, 0xFF00FF00#32), (7, 0x0FF00FF0#32)] 0x007342B3#32) 0x104#32 [(5, 0xF0F0F0F0#32)] .running = true := by
  decide

theorem test_srl :
    goesTo (at100 [(6, 0xF2345678#32), (7, 0x00000024#32)] 0x007352B3#32) 0x104#32 [(5, 0x0F234567#32)] .running = true := by
  decide

theorem test_sra :
    goesTo (at100 [(6, 0x80000000#32), (7, 0x0000001F#32)] 0x407352B3#32) 0x104#32 [(5, 0xFFFFFFFF#32)] .running = true ∧
    goesTo (at100 [(6, 0x80000000#32), (7, 0x00000020#32)] 0x407352B3#32) 0x104#32 [(5, 0x80000000#32)] .running = true := by
  decide

theorem test_or :
    goesTo (at100 [(6, 0xFF00FF00#32), (7, 0x0FF00FF0#32)] 0x007362B3#32) 0x104#32 [(5, 0xFFF0FFF0#32)] .running = true := by
  decide

theorem test_and :
    goesTo (at100 [(6, 0xFF00FF00#32), (7, 0x0FF00FF0#32)] 0x007372B3#32) 0x104#32 [(5, 0x0F000F00#32)] .running = true := by
  decide

theorem test_mul :
    goesTo (at100 [(6, 0x12345678#32), (7, 0x9ABCDEF0#32)] 0x027302B3#32) 0x104#32 [(5, 0x242D2080#32)] .running = true := by
  decide

theorem test_div :
    goesTo (at100 [(6, 0xFFFFFFF9#32), (7, 0x00000003#32)] 0x027342B3#32) 0x104#32 [(5, 0xFFFFFFFE#32)] .running = true ∧
    goesTo (at100 [(6, 0x80000000#32), (7, 0xFFFFFFFF#32)] 0x027342B3#32) 0x104#32 [(5, 0x80000000#32)] .running = true := by
  decide

theorem test_divu :
    goesTo (at100 [(6, 0xFFFFFFF9#32), (7, 0x00000003#32)] 0x027352B3#32) 0x104#32 [(5, 0x55555553#32)] .running = true ∧
    goesTo (at100 [(6, 0x00000007#32), (7, 0x00000000#32)] 0x027352B3#32) 0x104#32 [(5, 0xFFFFFFFF#32)] .running = true := by
  decide

theorem test_rem :
    goesTo (at100 [(6, 0xFFFFFFF9#32), (7, 0x00000003#32)] 0x027362B3#32) 0x104#32 [(5, 0xFFFFFFFF#32)] .running = true ∧
    goesTo (at100 [(6, 0xFFFFFFF9#32), (7, 0x00000000#32)] 0x027362B3#32) 0x104#32 [(5, 0xFFFFFFF9#32)] .running = true := by
  decide

theorem test_remu :
    goesTo (at100 [(6, 0xFFFFFF9C#32), (7, 0x00000007#32)] 0x027372B3#32) 0x104#32 [(5, 0x00000002#32)] .running = true ∧
    goesTo (at100 [(6, 0x80000000#32), (7, 0x00000000#32)] 0x027372B3#32) 0x104#32 [(5, 0x80000000#32)] .running = true := by
  decide

theorem test_fence :
    goesTo (at100 [] 0x8330000F#32) 0x104#32 [] .running = true ∧
    goesTo (at100 [] 0x00A28F8F#32) 0x104#32 [] .running = true := by
  decide

theorem test_fence_i :
    goesTo (at100 [] 0xFFFF9F8F#32) 0x104#32 [] .running = true := by
  decide

theorem test_lb :
    goesTo (loadState [(5, 0x00000200#32)] 0x00128303#32) 0x104#32 [(6, 0xFFFFFFBE#32)] .running = true ∧
    faults (loadState [(5, 0x00100000#32)] 0x00028303#32) (some 0x00028303#32) (.memoryFault 0x00100000#32 1) = true := by
  decide

theorem test_lh :
    goesTo (loadState [(5, 0x00000200#32)] 0x00129303#32) 0x104#32 [(6, 0xFFFFADBE#32)] .running = true ∧
    faults (loadState [(5, 0x000FFFFF#32)] 0x00029303#32) (some 0x00029303#32) (.memoryFault 0x000FFFFF#32 2) = true := by
  decide

theorem test_lw :
    goesTo (loadState [(5, 0x00000200#32)] 0x0012A303#32) 0x104#32 [(6, 0x7FDEADBE#32)] .running = true ∧
    faults (loadState [(5, 0x000FFFFD#32)] 0x0002A303#32) (some 0x0002A303#32) (.memoryFault 0x000FFFFD#32 4) = true := by
  decide

theorem test_lbu :
    goesTo (loadState [(5, 0x00000200#32)] 0x0012C303#32) 0x104#32 [(6, 0x000000BE#32)] .running = true ∧
    faults (loadState [(5, 0x00100000#32)] 0x0002C303#32) (some 0x0002C303#32) (.memoryFault 0x00100000#32 1) = true := by
  decide

theorem test_lhu :
    goesTo (loadState [(5, 0x00000200#32)] 0x0052D303#32) 0x104#32 [(6, 0x00000080#32)] .running = true ∧
    faults (loadState [(5, 0x000FFFFF#32)] 0x0002D303#32) (some 0x0002D303#32) (.memoryFault 0x000FFFFF#32 2) = true := by
  decide

theorem test_sb :
    stores (at100 [(5, 0x00000001#32), (6, 0x000001FF#32)] 0x7E628FA3#32) 0x800 [0xFF#8] = true ∧
    faults (at100 [(5, 0x00100000#32), (6, 0x55667788#32)] 0x00628023#32) (some 0x00628023#32) (.memoryFault 0x00100000#32 1) = true := by
  decide

theorem test_sh :
    stores (at100 [(5, 0x00000200#32), (6, 0xA1B2C3D4#32)] 0xFE629FA3#32) 0x1FF [0xD4#8, 0xC3#8] = true ∧
    faults (at100 [(5, 0x000FFFFF#32), (6, 0x55667788#32)] 0x00629023#32) (some 0x00629023#32) (.memoryFault 0x000FFFFF#32 2) = true := by
  decide

theorem test_sw :
    stores (at100 [(5, 0x00000200#32), (6, 0x11223344#32)] 0x0062A0A3#32) 0x201 [0x44#8, 0x33#8, 0x22#8, 0x11#8] = true ∧
    faults (at100 [(5, 0x000FFFFD#32), (6, 0x55667788#32)] 0x0062A023#32) (some 0x0062A023#32) (.memoryFault 0x000FFFFD#32 4) = true := by
  decide

theorem test_csrrw :
    faults (at100 [(5, 0x00000011#32), (6, 0x00000022#32)] 0x305312F3#32) (some 0x305312F3#32) (.unsupportedInstruction .csrrw) = true := by
  decide

theorem test_csrrs :
    faults (at100 [(5, 0x00000011#32), (6, 0x00000022#32)] 0xC00022F3#32) (some 0xC00022F3#32) (.unsupportedInstruction .csrrs) = true := by
  decide

theorem test_csrrc :
    faults (at100 [(5, 0x00000011#32), (6, 0x00000022#32)] 0x3003B073#32) (some 0x3003B073#32) (.unsupportedInstruction .csrrc) = true := by
  decide

theorem test_csrrwi :
    faults (at100 [(5, 0x00000011#32), (6, 0x00000022#32)] 0x340FD2F3#32) (some 0x340FD2F3#32) (.unsupportedInstruction .csrrwi) = true := by
  decide

theorem test_csrrsi :
    faults (at100 [(5, 0x00000011#32), (6, 0x00000022#32)] 0x30046073#32) (some 0x30046073#32) (.unsupportedInstruction .csrrsi) = true := by
  decide

theorem test_csrrci :
    faults (at100 [(5, 0x00000011#32), (6, 0x00000022#32)] 0xFFF072F3#32) (some 0xFFF072F3#32) (.unsupportedInstruction .csrrci) = true := by
  decide

/-- Section 2.10: vector mode, another vector and link register, and a link register that discards the address. -/
theorem test_ecall_vector :
    goesTo (at100 [] 0x00000073#32) 0x20#32 [(1, 0x104#32)] .running = true ∧
    goesTo (withCfg { Config.default with trapVector := 0x400#32, ecallLink := 5 } (at100 [] 0x00000073#32))
      0x400#32 [(5, 0x104#32)] .running = true ∧
    goesTo (withCfg { Config.default with ecallLink := 0 } (at100 [(1, 0x77#32)] 0x00000073#32))
      0x20#32 [] .running = true := by decide

theorem test_ecall_halt :
    goesTo (withCfg { Config.default with ecallMode := .halt } (at100 [] 0x00000073#32)) 0x104#32 []
      (.halted .environmentCall) = true := by decide

/-- Section 2.13: the breakpoint wins over the budget. -/
theorem test_ebreak :
    goesTo (at100 [] 0x00100073#32) 0x104#32 [] (.halted .breakpoint) = true ∧
    goesTo (withCfg { Config.default with maxInstructions := some 1 } (at100 [] 0x00100073#32)) 0x104#32 []
      (.halted .breakpoint) = true := by decide

/-! ### The step (sections 2.12, 2.13) -/

/-- A fetch at an odd `pc`, and the last fetchable word. -/
theorem test_fetch_anyAlignment :
    goesTo (State.withWordAtPc { State.reset with pc := 0x101#32 } 0x00500093#32) 0x105#32 [(1, 5#32)] .running = true ∧
    goesTo (State.withWordAtPc { State.reset with pc := 0xFFFFC#32 } 0x00500093#32) 0x100000#32 [(1, 5#32)]
      .running = true := by decide

theorem test_fetch_beyondMemory :
    faults { State.reset with pc := 0xFFFFD#32 } none (.memoryFault 0xFFFFD#32 4) = true ∧
    faults { State.reset with pc := 0xFFFFFFFC#32 } none (.memoryFault 0xFFFFFFFC#32 4) = true := by decide

/-- `MEM_SIZE = 2^32`: `pc` wraps to 0 (section 2.12). -/
theorem test_pc_wraps :
    goesTo (withCfg { Config.default with memSize := 2 ^ 32 }
        (State.withWordAtPc { State.reset with pc := 0xFFFFFFFC#32 } 0x00100293#32)) 0#32 [(5, 1#32)] .running = true := by
  decide

theorem test_trace_record :
    (after (at100 [] 0x00500093#32)).trace = [⟨1, 0x100#32, .addi⟩] ∧
    (after (at100 [] 0x00000000#32)).trace = [] := by decide

/-- The budget of one instruction, in the loop of section 2.13. -/
theorem test_budget :
    goesTo (withCfg { Config.default with maxInstructions := some 1 } (at100 [] 0x0000006F#32)) 0x100#32 []
      (.halted .budgetExceeded) = true ∧
    goesTo (withCfg { Config.default with maxInstructions := some 7 } (at100 [] 0x0000006F#32)) 0x100#32 []
      .running = true := by decide

theorem test_stop :
    after { at100 [] 0x00000000#32 with stops := [true, false] } =
      { at100 [] 0x00000000#32 with run := .halted .stopped, stops := [false] } := by decide

theorem test_unknownWords_fault :
    faults (at100 [] 0x0000007B#32) (some 0x7B#32) (.unknownOpcode 0x7B#7) = true ∧
    faults (at100 [] 0x027312B3#32) (some 0x027312B3#32) .unknownFunct = true := by decide

/-- The kind of a fault is a name, no code (R290, R304). -/
theorem test_faultKinds :
    (FaultInfo.unknownOpcode 0#7).kind = .unknownOpcode ∧ FaultInfo.unknownFunct.kind = .unknownFunct ∧
    (FaultInfo.memoryFault 0#32 4).kind = .memoryFault ∧
    (FaultInfo.unsupportedInstruction .csrrw).kind = .unsupportedInstruction := by decide

/-- How a run ended (R142). -/
theorem test_runEnds :
    (after (at100 [] 0x00000000#32)).failed = true ∧ (after (at100 [] 0x00100073#32)).failed = false ∧
    (after (at100 [] 0x00100073#32)).endedByProgram = true ∧ (at100 [] 0x00000000#32).endedByProgram = false := by
  decide

/-! ### The host's interface (sections 2.14, 2.15) -/

theorem test_reset_values :
    State.reset.getReg 2 = 0x00100000#32 ∧ State.reset.getReg 31 = 0#32 ∧ State.reset.pc = 0#32 ∧
    (State.resetWith { Config.default with memSize := 2 ^ 32 }).getReg 2 = 0#32 ∧
    (State.hostReset (withCfg { Config.default with memSize := 0x1000, disasmLimit := 0x1000 } State.reset)
      0x80#32).pc = 0x80#32 := by decide

theorem test_withFetchWord :
    decodeTableWord 32 0x00500093 = some (.addi 1 0 5) ∧ decodeTableWord 32 0 = none ∧
    goesTo (State.reset.withFetchWord 32 0x00500093) 4#32 [(1, 5#32)] .running = true := by decide

/-- The memory after an operation that answers a next state. -/
def memOf (o : Host.Outcome State Fault Refusal) : Memory :=
  match o with
  | .next t => t.mem
  | .fault _ => []
  | .refused _ => []

/-- The records of a disassembly that is not refused. -/
def recordsOf (o : Host.Outcome (List DisasmRecord) Fault Refusal) : List DisasmRecord :=
  match o with
  | .next records => records
  | .fault _ => []
  | .refused _ => []

theorem test_loadImage :
    memOf (State.reset.loadImage [0x93#8, 0x02#8, 0x10#8, 0x00#8]) = [(0, 0x93#8), (1, 0x02#8), (2, 0x10#8)] ∧
    memOf (State.reset.loadImage []) = [] := by decide

/-- R39, U23: refused once the first step is taken, whether it committed or halted the run. -/
theorem test_loadImage_afterFirstStep :
    (after (at100 [] 0x00500093#32)).loadImage [0x93#8] = .refused .imageLoadAfterFirstStep ∧
    (after { State.reset with stops := [true] }).loadImage [0x93#8] = .refused .imageLoadAfterFirstStep :=
  ⟨rfl, rfl⟩

/-- U21: `DISASM_LIMIT` one byte beyond memory is refused; a limit of `MEM_SIZE` is not. -/
theorem test_disassemble_limit :
    State.disassemble (State.resetWith { tinyCfg with disasmLimit := 5 }) = .refused .illegalConfiguration ∧
    State.disassemble (State.resetWith { tinyCfg with disasmLimit := 4 }) = .next [⟨0, 0#32, "NIY"⟩] :=
  ⟨rfl, rfl⟩

/-- Section 2.15: `DISASM_LIMIT = 30` gives the first seven records. -/
theorem test_disassemble :
    recordsOf (State.disassemble { State.reset with
      cfg := { Config.default with disasmLimit := 30 }
      mem := Memory.writeBytes [] 0 [0xB7#8, 0x12#8, 0x00#8, 0x00#8, 0x93#8, 0x00#8, 0xF0#8, 0xFF#8, 0x63#8, 0x84#8, 0x10#8,
        0x00#8, 0x00#8, 0x00#8, 0x00#8, 0x00#8, 0xEF#8, 0xBE#8, 0xAD#8, 0xDE#8, 0xF3#8, 0x12#8, 0x53#8, 0x30#8, 0x67#8, 0x10#8,
        0x00#8, 0x00#8, 0x73#8, 0x00#8] }) =
      [⟨0, 0x000012B7#32, "lui x5, 0x1"⟩, ⟨4, 0xFFF00093#32, "addi x1, x0, -1"⟩, ⟨8, 0x00108463#32, "beq x1, x1, 8"⟩,
        ⟨12, 0x00000000#32, "NIY"⟩, ⟨16, 0xDEADBEEF#32, "jal x29, -150038"⟩, ⟨20, 0x305312F3#32, "csrrw x5, 0x305, x6"⟩,
        ⟨24, 0x00001067#32, "NIY"⟩] := by decide

/-- The memory operations keep the canonical form: writing what an unlisted address reads as removes the entry. -/
theorem test_memory_canonical :
    Memory.writeLE [(4, 0x01#8), (6, 0x02#8)] 4 4 0x00AA0000 = [(6, 0xAA#8)] ∧
    Memory.wf [(6, 0xAA#8)] = true ∧ Memory.wf [(6, 0x00#8)] = false ∧ Memory.wf [(6, 1#8), (5, 1#8)] = false := by decide

/-! ### Witnesses: concrete inputs that meet the hypotheses of each statement, one per clause, at the boundaries -/

/-- Legal parameters at both ends of `MEM_SIZE`; the values next to them are not legal (O2, O4, O21). -/
theorem test_witness_legalParameters :
    tinyCfg.legal = true ∧ Config.default.legal = true ∧ ({ Config.default with memSize := 2 ^ 32 } : Config).legal = true ∧
    ({ tinyCfg with memSize := 3, disasmLimit := 3 } : Config).legal = false ∧
    ({ Config.default with memSize := 2 ^ 32 + 1 } : Config).legal = false ∧
    ({ Config.default with maxInstructions := some 0 } : Config).legal = false ∧
    ({ Config.default with maxInstructions := some 1 } : Config).legal = true ∧
    ({ Config.default with disasmLimit := 0x100001 } : Config).legal = false := by decide

/-- O3 StepKeepsInvariant: a state that is not the reset state meets the invariant, and its step commits. -/
theorem test_witness_invariantStep :
    (at100 [(5, 7#32)] 0x00130293#32).Inv ∧
    step (at100 [(5, 7#32)] 0x00130293#32) = .next (after (at100 [(5, 7#32)] 0x00130293#32)) ∧
    (after (at100 [(5, 7#32)] 0x00130293#32)).icount = 1 :=
  ⟨⟨by decide, by decide, by decide, by decide, by decide, fun _ => by decide, fun h => (by cases h),
    fun _ h => (by cases h)⟩, rfl, by decide⟩

/-- O4 LaunchedRunNeverSticks: legal parameters and an image of exactly `MEM_SIZE` bytes. -/
theorem test_witness_launch :
    tinyCfg.legal = true ∧ ([0x6F#8, 0x00#8, 0x00#8, 0x00#8] : List Byte).length ≤ tinyCfg.memSize := by decide

/-- O5 ExtractorReturnsTheBits: a single bit, a middle range, the whole word. -/
theorem test_witness_extract :
    (extract 0xDEADBEEF#32 31 31).toNat = 1 ∧ (extract 0xDEADBEEF#32 0 6).toNat = 0x6F ∧
    (extract 0xDEADBEEF#32 0 31).toNat = 0xDEADBEEF := by decide

/-- O9, O14, O30, O39: words that decode, at the ends of an immediate; O13: well-formed instructions. -/
theorem test_witness_decodes :
    decode (encode (.addi 5 6 (-2048))) = .instr (.addi 5 6 (-2048)) ∧ (Instr.addi 5 6 (-2048)).wellFormed = true ∧
    Instr.addi 5 6 (-2048) ≠ .fence ∧ Instr.addi 5 6 (-2048) ≠ .fenceI ∧
    decode 0x7FFFF0EF#32 = .instr (.jal 1 1048574) ∧ (Instr.jal 1 1048574).wellFormed = true := by decide

/-- O10 to O12 and the `DecodesTo` clauses of O41 to O60: words under each mask. -/
theorem test_witness_masks :
    0xABCDE137#32 &&& Mnemonic.lui.mask = Mnemonic.lui.matchWord ∧
    0x8330000F#32 &&& Mnemonic.fence.mask = Mnemonic.fence.matchWord ∧
    0x407352B3#32 &&& Mnemonic.sra.mask = Mnemonic.sra.matchWord ∧
    0x00000073#32 &&& Mnemonic.ecall.mask = Mnemonic.ecall.matchWord := by decide

/-- O16 StepRunsTheDecodedInstruction: the last fetchable word, a sample list that is not empty. -/
theorem test_witness_stepRuns :
    ∃ s : State, s.cfg.legal = true ∧ s.run = .running ∧ s.stops.headD false = false ∧ s.pc.toNat + 4 = s.cfg.memSize ∧
      decodeBytes (s.mem.byteAt s.pc.toNat) (s.mem.byteAt (s.pc.toNat + 1)) (s.mem.byteAt (s.pc.toNat + 2))
        (s.mem.byteAt (s.pc.toNat + 3)) = .instr (.addi 1 0 5) :=
  ⟨State.withWordAtPc { State.reset with pc := 0xFFFFC#32 } 0x00500093#32, by decide⟩

/-- O17 HaltedMachineDoesNotChange: a halted machine. -/
theorem test_witness_halted :
    (after (at100 [] 0x00100073#32)).cfg.legal = true ∧
    (after (at100 [] 0x00100073#32)).run = .halted .breakpoint := by decide

/-- O18 StopHaltsFirstAndCannotBeObserved: a set sample; and a sample not set, with a step. -/
theorem test_witness_stopSamples :
    (∃ s : State, s.cfg.legal = true ∧ s.run = .running ∧ s.stops = true :: [false]) ∧
    (at100 [] 0x00500093#32).run = .running ∧ (at100 [] 0x00500093#32).stops.headD false = false ∧
    step (at100 [] 0x00500093#32) = .next (after (at100 [] 0x00500093#32)) :=
  ⟨⟨{ State.reset with stops := [true, false] }, by decide⟩, by decide, by decide, rfl⟩

/-- O19 FetchIsAWordReadAtPc: the last `pc` that can be fetched from and the first that cannot. -/
theorem test_witness_fetch :
    (0xFFFFC#32).toNat + 4 ≤ Config.default.memSize ∧ Config.default.memSize < (0xFFFFD#32).toNat + 4 ∧
    Config.default.legal = true ∧ State.reset.run = .running ∧ State.reset.stops.headD false = false := by decide

/-- O20 UndecodableWordsRaiseTheirFault: a fetched word of each kind. -/
theorem test_witness_undecodable :
    (at100 [] 0x00000000#32).fetchWord = some 0#32 ∧ decode 0#32 = .unknownOpcode 0#7 ∧
    (at100 [] 0x00001067#32).fetchWord = some 0x1067#32 ∧ decode 0x1067#32 = .unknown ∧
    (at100 [] 0x00001067#32).cfg.legal = true ∧ (at100 [] 0x00001067#32).run = .running ∧
    (at100 [] 0x00001067#32).stops.headD false = false := by decide

/-- O22 FaultingStepChangesOnlyTheRunState: a data fault. -/
theorem test_witness_faultingStep :
    (at100 [(6, 1#32)] 0x00612023#32).run = .running ∧
    step (at100 [(6, 1#32)] 0x00612023#32) = .next (after (at100 [(6, 1#32)] 0x00612023#32)) ∧
    (after (at100 [(6, 1#32)] 0x00612023#32)).run =
      .halted (.fault ⟨0x100#32, some 0x00612023#32, .memoryFault 0x100000#32 4⟩) :=
  ⟨by decide, rfl, by decide⟩

/-- O24 HaltReasonsHaveTheirCauses: every reason, with every kind of fault, is entered by a step of a running machine;
`MemoryFault` by a fetch, a load and a store. -/
theorem test_witness_haltReasons :
    (after { at100 [] 0x00100073#32 with stops := [true] }).run = .halted .stopped ∧
    (after (at100 [] 0x00100073#32)).run = .halted .breakpoint ∧
    (after (withCfg { Config.default with ecallMode := .halt } (at100 [] 0x00000073#32))).run =
      .halted .environmentCall ∧
    (after (withCfg { Config.default with maxInstructions := some 1 } (at100 [] 0x0000000F#32))).run =
      .halted .budgetExceeded ∧
    (after (at100 [] 0x305312F3#32)).run =
      .halted (.fault ⟨0x100#32, some 0x305312F3#32, .unsupportedInstruction .csrrw⟩) ∧
    (after (at100 [] 0x00000000#32)).run = .halted (.fault ⟨0x100#32, some 0#32, .unknownOpcode 0#7⟩) ∧
    (after (at100 [] 0x00001067#32)).run = .halted (.fault ⟨0x100#32, some 0x1067#32, .unknownFunct⟩) ∧
    (after { State.reset with pc := 0xFFFFD#32 }).run =
      .halted (.fault ⟨0xFFFFD#32, none, .memoryFault 0xFFFFD#32 4⟩) ∧
    (after (at100 [(5, 0x100000#32)] 0x0002A303#32)).run =
      .halted (.fault ⟨0x100#32, some 0x0002A303#32, .memoryFault 0x100000#32 4⟩) ∧
    (after (at100 [(5, 0xFFFFF#32)] 0x00629023#32)).run =
      .halted (.fault ⟨0x100#32, some 0x00629023#32, .memoryFault 0xFFFFF#32 2⟩) := by decide

/-- O23, O25, O26: an instruction that commits in sequence, beside a register it does not write. -/
theorem test_witness_commits :
    exec (.addi 5 6 1) State.reset = .next (afterExec (.addi 5 6 1) State.reset) ∧
    (afterExec (.addi 5 6 1) State.reset).icount = State.reset.icount + 1 ∧
    redirects State.reset.cfg (.addi 5 6 1) = false ∧ destOf State.reset.cfg (.addi 5 6 1) ≠ some 6 ∧
    step (at100 [] 0x00130293#32) = .next (after (at100 [] 0x00130293#32)) :=
  ⟨rfl, by decide, by decide, by decide, rfl⟩

/-- O27 OnlyStoresChangeMemory: an instruction that stores nothing, a store, and the addresses next to its bytes. -/
theorem test_witness_storesOnly :
    storeOf (.addi 5 6 1) = none ∧ storeOf (.sh 6 5 (-1)) = some (5, -1, 2) ∧
    exec (.sh 6 5 (-1)) (withRegs [(5, 0x200#32)] State.reset) =
      .next (afterExec (.sh 6 5 (-1)) (withRegs [(5, 0x200#32)] State.reset)) ∧
    0x1FE < ((withRegs [(5, 0x200#32)] State.reset).effAddr 5 (-1)).toNat ∧
    ((withRegs [(5, 0x200#32)] State.reset).effAddr 5 (-1)).toNat + 2 ≤ 0x201 :=
  ⟨by decide, by decide, rfl, by decide, by decide⟩

/-- O28, O29: a step of a running machine without a budget, and one of a halted machine. -/
theorem test_witness_runningAndHalted :
    (at100 [] 0x00100073#32).run = .running ∧ (at100 [] 0x00100073#32).cfg.maxInstructions = none ∧
    step (at100 [] 0x00100073#32) = .next (after (at100 [] 0x00100073#32)) ∧
    (after (at100 [] 0x00100073#32)).run ≠ .running ∧
    step (after (at100 [] 0x00100073#32)) = .next (after (after (at100 [] 0x00100073#32))) :=
  ⟨by decide, by decide, rfl, by decide, rfl⟩

/-- O30 PlacedWordIsRunNext: the reset state and a word that decodes. -/
theorem test_witness_placedWord :
    State.reset.cfg.legal = true ∧ State.reset.pc.toNat + 4 ≤ State.reset.cfg.memSize ∧
    decode 0x00500093#32 = .instr (.addi 1 0 5) := by decide

/-- O31 to O34: the boundary of memory, for the default size and for the smallest; each clause of O34 has its own address. -/
theorem test_witness_boundary :
    (0xFFFFC#32).toNat = Config.default.memSize - 4 ∧ Config.default.memSize - 3 ≤ (0xFFFFD#32).toNat ∧
    (0xFFFFF#32).toNat = Config.default.memSize - 1 ∧ Config.default.memSize ≤ (0x100000#32).toNat ∧
    (0#32).toNat = tinyCfg.memSize - 4 ∧ tinyCfg.memSize - 3 ≤ (1#32).toNat ∧ (3#32).toNat = tinyCfg.memSize - 1 ∧
    tinyCfg.memSize ≤ (4#32).toNat ∧ tinyCfg.legal = true ∧
    (State.reset.memWrite 0xFFFFE#32 2 0x1234#32).isSome = true ∧
    (State.reset.memWrite 0xFFFFF#32 2 0x1234#32).isSome = false := by decide

/-- O35 StoredWordIsLittleEndian: the smallest memory. -/
theorem test_witness_fourBytes : 4 ≤ (State.resetWith tinyCfg).cfg.memSize := by decide

/-- O37 StoreIsSeenByTheNextFetch: `sw x6, x0, 260` at `0x100` (section 2.6). -/
theorem test_witness_storeOverNext :
    exec (.sw 6 0 260) (at100 [(6, 0x00100073#32)] 0x10602223#32) =
      .next (afterExec (.sw 6 0 260) (at100 [(6, 0x00100073#32)] 0x10602223#32)) ∧
    (afterExec (.sw 6 0 260) (at100 [(6, 0x00100073#32)] 0x10602223#32)).icount = 1 ∧
    (at100 [(6, 0x00100073#32)] 0x10602223#32).effAddr 0 260 =
      (at100 [(6, 0x00100073#32)] 0x10602223#32).pc + 4#32 := ⟨rfl, by decide, by decide⟩

/-- O38 LoadImageCopiesBeforeTheFirstStepOnly: an image of exactly `MEM_SIZE` bytes and one a byte longer, before the
first step; a step that commits and one that halts; a halted machine with a count of 0; an illegal configuration. -/
theorem test_witness_imageLoads :
    tinyCfg.legal = true ∧ (State.resetWith tinyCfg).run = .running ∧ (State.resetWith tinyCfg).icount = 0 ∧
    ([1#8, 2#8, 3#8, 4#8] : List Byte).length ≤ (State.resetWith tinyCfg).cfg.memSize ∧
    (State.resetWith tinyCfg).cfg.memSize < ([1#8, 2#8, 3#8, 4#8, 5#8] : List Byte).length ∧
    step (at100 [] 0x00500093#32) = .next (after (at100 [] 0x00500093#32)) ∧
    (after (at100 [] 0x00500093#32)).run = .running ∧ (after (at100 [] 0x00500093#32)).icount ≠ 0 ∧
    step State.reset = .next (after State.reset) ∧ (after State.reset).run ≠ .running ∧ (after State.reset).icount = 0 ∧
    (State.resetWith { tinyCfg with disasmLimit := 5 }).cfg.legal = false :=
  ⟨by decide, rfl, rfl, by decide, by decide, rfl, by decide, by decide, rfl, by decide, by decide, by decide⟩

/-- O39, O40: a listed word, and a step that commits it; a limit beyond memory. -/
theorem test_witness_listedWord :
    (∃ (s : State) (records : List DisasmRecord), s.cfg.legal = true ∧ s.disassemble = .next records ∧
      0 < records.length ∧ s.pc.toNat = 4 * 0 ∧ step s = .next (after s) ∧ (after s).icount = s.icount + 1) ∧
    (State.resetWith { tinyCfg with disasmLimit := 5 }).cfg.memSize <
      (State.resetWith { tinyCfg with disasmLimit := 5 }).cfg.disasmLimit :=
  ⟨⟨State.withWordAtPc (State.resetWith tinyCfg) 0x00500093#32, _, by decide, rfl, by decide, by decide, rfl,
    by decide⟩, by decide⟩

/-- O45, O46: the last address in range and the first out of range, for each width. -/
theorem test_witness_accessEnds :
    ((withRegs [(5, 0xFFFFC#32)] State.reset).effAddr 5 0).toNat + 4 ≤ Config.default.memSize ∧
    Config.default.memSize < ((withRegs [(5, 0xFFFFD#32)] State.reset).effAddr 5 0).toNat + 4 ∧
    ((withRegs [(5, 0xFFFFE#32)] State.reset).effAddr 5 0).toNat + 2 ≤ Config.default.memSize ∧
    Config.default.memSize < ((withRegs [(5, 0xFFFFF#32)] State.reset).effAddr 5 0).toNat + 2 ∧
    ((withRegs [(5, 0xFFFFF#32)] State.reset).effAddr 5 0).toNat + 1 ≤ Config.default.memSize ∧
    Config.default.memSize < ((withRegs [(5, 0x100000#32)] State.reset).effAddr 5 0).toNat + 1 := by decide

/-- O47 AddiAndSltiResults: the ends of the immediate's range. -/
theorem test_witness_immediateEnds :
    (-2048 : Int) ≤ -2048 ∧ (-2048 : Int) ≤ 2047 ∧ (-2048 : Int) ≤ 2047 ∧ (2047 : Int) ≤ 2047 := by decide

/-- O54 QuotientAndRemainderFitTogether: a divisor that is not zero, without and with overflow. -/
theorem test_witness_divisor :
    (3#32 : Word) ≠ 0 ∧ ¬ ((0xFFFFFFF9#32 : Word).toInt = -2 ^ 31 ∧ (3#32 : Word).toInt = -1) ∧
    (0xFFFFFFFF#32 : Word) ≠ 0 ∧ ((0x80000000#32 : Word).toInt = -2 ^ 31 ∧ (0xFFFFFFFF#32 : Word).toInt = -1) := by
  decide

/-- O55, O56: both values of `ECALL_MODE`. -/
theorem test_witness_ecallModes :
    State.reset.cfg.ecallMode = .vector ∧
    (withCfg { Config.default with ecallMode := .halt } State.reset).cfg.ecallMode = .halt := by decide

/-- O58 JalrReturnsFromTheTrap: the state right after the trap entry is such a later state; with `ECALL_LINK = 0` too. -/
theorem test_witness_trapReturn :
    exec .ecall State.reset = .next (afterExec .ecall State.reset) ∧
    (afterExec .ecall State.reset).getReg 1 = 4#32 ∧
    exec .ecall (withCfg { Config.default with ecallLink := 0 } State.reset) =
      .next (afterExec .ecall (withCfg { Config.default with ecallLink := 0 } State.reset)) := ⟨rfl, by decide, rfl⟩

end Sys2Proof.Machine.Tests
end

section
/-! PROOF. The Disassembler's listing (50_disassembler.md R270 to R274; 00_scope.md R11). -/

namespace Sys2Proof

/-! ### The limits on the parameters -/

/-- The limits of R6, R9, R10 and R11, one by one. -/
theorem Config.legal_iff (c : Config) :
    c.legal = true ↔ 4 ≤ c.memSize ∧ c.memSize ≤ 2 ^ 32 ∧ c.maxInstructions ≠ some 0 ∧
      c.initMem.wf = true ∧ c.initMem.below c.memSize = true ∧ c.disasmLimit ≤ c.memSize := by
  simp only [Config.legal, Bool.and_eq_true, decide_eq_true_eq, and_assoc]

theorem Config.disasmLimit_le_memSize_of_legal {c : Config} (h : c.legal = true) : c.disasmLimit ≤ c.memSize := by
  obtain ⟨-, -, -, -, -, hlimit⟩ := (Config.legal_iff c).mp h
  exact hlimit

theorem Config.legal_eq_false_of_memSize_lt_disasmLimit {c : Config} (h : c.memSize < c.disasmLimit) :
    c.legal = false :=
  Bool.eq_false_iff.mpr fun hl => Nat.not_le_of_lt h (Config.disasmLimit_le_memSize_of_legal hl)

end Sys2Proof

namespace Sys2Proof.Machine

/-! ### One record -/

@[simp] theorem disasmRecord_addr (m : Memory) (k : Nat) : (disasmRecord m k).addr = 4 * k := rfl

/-- Four bytes are less than 2^32, so the record's word loses nothing of them. -/
theorem disasmRecord_word_toNat (m : Memory) (k : Nat) : (disasmRecord m k).word.toNat = m.readLE (4 * k) 4 := by
  have hlt : m.readLE (4 * k) 4 < 2 ^ 32 := Memory.readLE_lt m (4 * k) 4
  exact (BitVec.toNat_ofNat _ _).trans (Nat.mod_eq_of_lt hlt)

theorem disasmRecord_text (m : Memory) (k : Nat) : (disasmRecord m k).text = render (decode (disasmRecord m k).word) :=
  rfl

/-- R274: whatever is not an instruction, of either unknown kind, prints the placeholder. -/
theorem render_of_ne_instr {r : DecodeResult} (h : ∀ i : Instr, r ≠ .instr i) : render r = "NIY" := by
  cases r with
  | instr i => exact absurd rfl (h i)
  | unknown => rfl
  | unknownOpcode op => rfl

/-- Settles O39: each listed record is the record of its own word of memory, and the configuration's limits put the word
inside memory. -/
theorem disassemblyListsEveryWord : Obligations.DisassemblyListsEveryWord := by
  intro s
  refine ⟨fun hl => ⟨s.listing, s.disassemble_of_legal hl, s.length_listing, fun k hk => ?_⟩, fun hlt => ?_,
    s.disassemble_of_not_legal⟩
  · have hlimit : s.cfg.disasmLimit ≤ s.cfg.memSize := Config.disasmLimit_le_memSize_of_legal hl
    have hlisted : k < s.cfg.disasmLimit / 4 := s.length_listing ▸ hk
    rw [State.getElem_listing]
    refine ⟨disasmRecord_addr s.mem k, by omega, ?_, fun i hi => ?_, fun hno => ?_⟩
    · rw [disasmRecord_word_toNat, readLE_four]
    · rw [disasmRecord_text, hi, render]
    · rw [disasmRecord_text, render_of_ne_instr hno]
  · exact s.disassemble_of_not_legal (Config.legal_eq_false_of_memSize_lt_disasmLimit hlt)

end Sys2Proof.Machine
end

section
/-! PROOF. Loading the image (20_memory.md R58; 10_state.md R39; 93_implementation_defined.md U14, U16, U21, U23). -/

namespace Sys2Proof.Machine

/-! ### The memory after a load -/

theorem byteAt_writeBytes_zero_of_lt (m : Memory) (bytes : List Byte) {k : Nat} (h : k < bytes.length) :
    Memory.byteAt (m.writeBytes 0 bytes) k = bytes[k] := by
  simp [Memory.byteAt_writeBytes, h]

theorem byteAt_writeBytes_zero_of_le (m : Memory) (bytes : List Byte) {a : Nat} (h : bytes.length ≤ a) :
    Memory.byteAt (m.writeBytes 0 bytes) a = m.byteAt a := by
  simp [Memory.byteAt_writeBytes, Nat.not_lt.mpr h]

/-! ### Each end of a load, by the state and the image's length -/

theorem State.loadImage_of_not_legal {s : State} (bytes : List Byte) (hl : s.cfg.legal = false) :
    s.loadImage bytes = .refused .illegalConfiguration := by
  simpa [hl] using s.loadImage_cases bytes

theorem State.loadImage_of_not_beforeFirstStep {s : State} (bytes : List Byte) (hl : s.cfg.legal = true)
    (hb : s.beforeFirstStep = false) : s.loadImage bytes = .refused .imageLoadAfterFirstStep := by
  simpa [hl, hb] using s.loadImage_cases bytes

theorem State.loadImage_of_le {s : State} {bytes : List Byte} (hl : s.cfg.legal = true)
    (hb : s.beforeFirstStep = true) (hfit : bytes.length ≤ s.cfg.memSize) :
    s.loadImage bytes = .next { s with mem := s.mem.writeBytes 0 bytes } := by
  simpa [hl, hb, hfit, Nat.not_lt.mpr hfit] using s.loadImage_cases bytes

theorem State.loadImage_of_gt {s : State} {bytes : List Byte} (hl : s.cfg.legal = true)
    (hb : s.beforeFirstStep = true) (hlong : s.cfg.memSize < bytes.length) :
    s.loadImage bytes = .fault (.imageMemoryFault 0 bytes.length) := by
  simpa [hl, hb, hlong, Nat.not_le.mpr hlong] using s.loadImage_cases bytes

/-! ### Before the first step -/

theorem State.beforeFirstStep_eq_false_iff (s : State) :
    s.beforeFirstStep = false ↔ s.run ≠ .running ∨ s.icount ≠ 0 := by
  rw [← Bool.not_eq_true, s.beforeFirstStep_iff, not_and_or]

/-- Settles O38: before the first step the load is one write at address 0, or the host's fault for its length; every step
ends in a legal state that is no longer before the first step, where the load is refused. -/
theorem loadImageCopiesBeforeTheFirstStepOnly : Obligations.LoadImageCopiesBeforeTheFirstStepOnly := by
  refine ⟨fun s bytes hl hr hc => ?_, fun s t bytes hstep => ?_, fun s bytes hl hafter => ?_,
    fun s bytes hl => State.loadImage_of_not_legal bytes hl⟩
  · have hb : s.beforeFirstStep = true := s.beforeFirstStep_iff.mpr ⟨hr, hc⟩
    exact ⟨fun hfit => ⟨_, State.loadImage_of_le hl hb hfit, rfl,
      fun _ hk => byteAt_writeBytes_zero_of_lt s.mem bytes hk, fun _ ha => byteAt_writeBytes_zero_of_le s.mem bytes ha⟩,
      State.loadImage_of_gt hl hb⟩
  · obtain ⟨hl, hb⟩ := step_not_beforeFirstStep hstep
    exact State.loadImage_of_not_beforeFirstStep bytes hl hb
  · exact State.loadImage_of_not_beforeFirstStep bytes hl (s.beforeFirstStep_eq_false_iff.mpr hafter)

end Sys2Proof.Machine
end

section
/-! PROOF. A read of memory is the sum of its bytes (20_memory.md R53). -/

namespace Sys2Proof.Machine

theorem Memory.readLE_eq_sum (m : Memory) (a n : Nat) :
    m.readLE a n = ((List.range n).map fun i => (m.byteAt (a + i)).toNat * 2 ^ (8 * i)).sum := by
  induction n generalizing a with
  | zero => rfl
  | succ n ih =>
    have hshift (i : Nat) : (m.byteAt (a + (i + 1))).toNat * 2 ^ (8 * (i + 1)) =
        256 * ((m.byteAt (a + 1 + i)).toNat * 2 ^ (8 * i)) := by
      rw [show a + (i + 1) = a + 1 + i by omega]
      ring
    rw [Memory.readLE, ih, ← List.sum_map_mul_left]
    simp [List.range_succ_eq_map, Function.comp_def, hshift]

/-- Settles O31: beyond memory there is no value; inside it the read is `readLE`, whose recursion on the width is the
sum, for every width. -/
theorem memReadIsTheLittleEndianSum : Obligations.MemReadIsTheLittleEndianSum := by
  intro s addr n _
  split
  case isTrue hout => exact s.memRead_of_gt addr n hout
  case isFalse hin => rw [s.memRead_of_le addr n (Nat.not_lt.mp hin), Memory.readLE_eq_sum]

end Sys2Proof.Machine
end

section
/-! PROOF. The branch and jump immediates are even and in range (30_encoding.md R107). -/

namespace Sys2Proof

/-! ### Even bit vectors read as signed -/

theorem even_toInt_of_even_toNat {n : Nat} {b : BitVec (n + 1)} (h : b.toNat % 2 = 0) : b.toInt % 2 = 0 := by
  have hpow : (2 ^ (n + 1) : Nat) = 2 * 2 ^ n := pow_succ' 2 n
  rw [BitVec.toInt_eq_toNat_cond, hpow]
  split <;> omega

/-- An even value lies below the odd maximum `2 ^ (n + 1) - 1` of its width. -/
theorem toInt_bounds_of_even_toNat {n : Nat} {b : BitVec (n + 2)} (h : b.toNat % 2 = 0) :
    -2 ^ (n + 1) ≤ b.toInt ∧ b.toInt ≤ 2 ^ (n + 1) - 2 := by
  have hlow : -2 ^ (n + 1) ≤ b.toInt := b.le_toInt
  have hhigh : b.toInt < 2 ^ (n + 1) := b.toInt_lt
  have heven : b.toInt % 2 = 0 := even_toInt_of_even_toNat h
  have hpow : (2 ^ (n + 1) : Int) = 2 * 2 ^ n := pow_succ' 2 n
  omega

/-! ### The patterns of the B- and J-immediates end in a 0 bit (R91, R93) -/

theorem even_immBBits (w : Word) : (immBBits w).toNat % 2 = 0 := by
  rw [immBBits_toNat]
  omega

theorem even_immJBits (w : Word) : (immJBits w).toNat % 2 = 0 := by
  rw [immJBits_toNat]
  omega

/-- Settles O8: the patterns are even, and an even signed number of 13 or 21 bits lies in the range. -/
theorem branchAndJumpImmediatesAreEvenAndInRange : Obligations.BranchAndJumpImmediatesAreEvenAndInRange := by
  intro w
  rw [immB_eq, immJ_eq]
  obtain ⟨hBlow, hBhigh⟩ := toInt_bounds_of_even_toNat (even_immBBits w)
  obtain ⟨hJlow, hJhigh⟩ := toInt_bounds_of_even_toNat (even_immJBits w)
  exact ⟨even_toInt_of_even_toNat (even_immBBits w), hBlow, hBhigh,
    even_toInt_of_even_toNat (even_immJBits w), hJlow, hJhigh⟩

end Sys2Proof
end

section
/-! PROOF. The Bitfield Extractor and the common fields (30_encoding.md R81, R82). -/

namespace Sys2Proof

/-! ### The Bitfield Extractor (R81) -/

theorem extract_bit_toNat (w : Word) (k : Nat) : (extract w k k).toNat = if w.getLsbD k then 1 else 0 := by
  have hbit : (extract w k k).toNat = w.toNat / 2 ^ k % 2 := by
    simpa using extract_toNat w k k
  rw [hbit, BitVec.getLsbD, Nat.testBit_eq_decide_div_mod_eq]
  simp only [decide_eq_true_eq]
  split <;> omega

theorem extract_all_toNat (w : Word) : (extract w 0 31).toNat = w.toNat := by
  have hall : (extract w 0 31).toNat = w.toNat % 2 ^ 32 := by
    simpa using extract_toNat w 0 31
  exact hall.trans (Nat.mod_eq_of_lt w.isLt)

/-- Settles O5: the extractor is a division by the low end and a remainder of the width, whatever the range. -/
theorem extractorReturnsTheBits : Obligations.ExtractorReturnsTheBits := by
  intro w
  exact ⟨fun lsb msb _ _ => extract_toNat w lsb msb, fun k _ => extract_bit_toNat w k, extract_all_toNat w⟩

/-! ### The common fields (R82) -/

/-- Settles O6: each field is an extraction at its bits; the format table is read format by format. -/
theorem commonFieldsStandAtTheirBits : Obligations.CommonFieldsStandAtTheirBits := by
  refine ⟨fun w => ⟨opcodeOf_toNat w, rdOf_val w, funct3Of_toNat w, rs1Of_val w, rs2Of_val w, funct7Of_toNat w⟩,
    fun f hi lo => ?_⟩
  cases f <;> simp [Format.layout]

end Sys2Proof
end

section
/-! PROOF. Fetch reads the word at `pc`, or is fault entry (40_step_cycle.md R133; 60_exceptions.md R295, R296). -/

namespace Sys2Proof.Machine

theorem State.fetchWord_of_gt (s : State) (h : s.cfg.memSize < s.pc.toNat + 4) : s.fetchWord = none := by
  rw [State.fetchWord, s.memRead_of_gt s.pc 4 h, Option.map_none]

/-- Of the ways a step can end, a running machine that is not stopped and finds no word at `pc` has one left. -/
theorem step_of_fetchWord_none {s : State} (hl : s.cfg.legal = true) (hr : s.run = .running)
    (hs : s.stopSample = false) (hf : s.fetchWord = none) :
    step s = .next (s.afterSample.raise (.memoryFault s.pc 4)) := by
  obtain ⟨hillegal, _⟩ | ⟨_, ⟨_, hhalted, _⟩ | ⟨_, ⟨hstopped, _⟩ | ⟨_, ⟨_, hstep⟩ | ⟨_, hfetched, _⟩⟩⟩⟩ := step_cases s
  · cases hl.symm.trans hillegal
  · cases hr.symm.trans hhalted
  · cases hs.symm.trans hstopped
  · exact hstep
  · cases hf.symm.trans hfetched

/-- Settles O19: in range the word is put together from the bytes at `pc`, with no condition on alignment; out of range
no word is fetched, so the step is fault entry and its diagnostic has none. -/
theorem fetchIsAWordReadAtPc : Obligations.FetchIsAWordReadAtPc := by
  refine fun s => ⟨fun hin => ⟨_, s.fetchWord_of_le hin, wordOfBytes_toNat _ _ _ _⟩, fun hout hl hr hs => ?_⟩
  have hf : s.fetchWord = none := s.fetchWord_of_gt hout
  rw [step_of_fetchWord_none hl hr hs hf, State.raise_eq_faulted, State.fetchWord_afterSample, hf]
  rfl

end Sys2Proof.Machine
end

section
/-! PROOF. How a step ends, and the invariant it keeps (40_step_cycle.md R130 to R142; 60_exceptions.md R295,
R298, R306). -/

namespace Sys2Proof.Machine

/-! ### A step, by what it meets -/

theorem step_of_halted {s : State} {r : HaltReason} (hl : s.cfg.legal = true) (hr : s.run = .halted r) :
    step s = .next s := by
  simp [step, hl, hr]

theorem step_of_stopped {s : State} (hl : s.cfg.legal = true) (hr : s.run = .running) (hs : s.stopSample = true) :
    step s = .next { s.afterSample with run := .halted .stopped } := by
  simp [step, hl, hr, State.runningStep, hs]

theorem step_of_not_stopped {s : State} (hl : s.cfg.legal = true) (hr : s.run = .running)
    (hs : s.stopSample = false) : step s = s.afterSample.fetchDecodeExecute := by
  simp [step, hl, hr, State.runningStep, hs]

theorem step_of_unknownOpcode {s : State} {w : Word} {op : BitVec 7} (hl : s.cfg.legal = true) (hr : s.run = .running)
    (hs : s.stopSample = false) (hf : s.fetchWord = some w) (hd : decode w = .unknownOpcode op) :
    step s = .next (s.afterSample.raise (.unknownOpcode op)) := by
  rw [step_of_not_stopped hl hr hs, State.fetchDecodeExecute, State.fetchWord_afterSample, hf]
  simp only [hd]

theorem step_of_unknown {s : State} {w : Word} (hl : s.cfg.legal = true) (hr : s.run = .running)
    (hs : s.stopSample = false) (hf : s.fetchWord = some w) (hd : decode w = .unknown) :
    step s = .next (s.afterSample.raise .unknownFunct) := by
  rw [step_of_not_stopped hl hr hs, State.fetchDecodeExecute, State.fetchWord_afterSample, hf]
  simp only [hd]

theorem step_of_instr {s : State} {w : Word} {i : Instr} (hl : s.cfg.legal = true) (hr : s.run = .running)
    (hs : s.stopSample = false) (hf : s.fetchWord = some w) (hd : decode w = .instr i) :
    step s = exec i s.afterSample := by
  rw [step_of_not_stopped hl hr hs, State.fetchDecodeExecute, State.fetchWord_afterSample, hf]
  simp only [hd]

theorem step_of_not_legal {s : State} (hl : s.cfg.legal = false) : step s = .refused .illegalConfiguration := by
  simp [step, hl]

/-! ### The state a step leaves -/

/-- The faults a step can enter, each with its cause (R291 to R294). -/
def StepFault (s : State) (info : FaultInfo) : Prop :=
  (s.fetchWord = none ∧ info = .memoryFault s.pc 4) ∨
  ∃ w, s.fetchWord = some w ∧
    ((∃ op, decode w = .unknownOpcode op ∧ info = .unknownOpcode op) ∨
     (decode w = .unknown ∧ info = .unknownFunct) ∨
     ∃ i, decode w = .instr i ∧ ExecFault i s info)

/-- A memory that is the old one, or the old one with one store inside `MEM_SIZE`. -/
def StoredInside (s : State) (mem : Memory) : Prop :=
  mem = s.mem ∨ ∃ a n v, a + n ≤ s.cfg.memSize ∧ mem = s.mem.writeLE a n v

/-- The halts an instruction can bring with its own commit (R140). -/
def OwnHalt (i : Instr) (s : State) (h : Option HaltReason) : Prop :=
  h = none ∨ (h = some .breakpoint ∧ i = .ebreak) ∨ (h = some .environmentCall ∧ i = .ecall ∧ s.cfg.ecallMode = .halt)

/-- The ways a step that answers a next state can end. -/
inductive StepEnds (s : State) : State → Prop
  | halted (r : HaltReason) (hr : s.run = .halted r) : StepEnds s s
  | stopped (hr : s.run = .running) (hs : s.stopSample = true) :
      StepEnds s { s.afterSample with run := .halted .stopped }
  | fault (info : FaultInfo) (hr : s.run = .running) (hs : s.stopSample = false) (hf : StepFault s info) :
      StepEnds s (s.afterSample.raise info)
  | commit (w : Word) (i : Instr) (x : Vector Word 32) (mem : Memory) (p : Word) (h : Option HaltReason)
      (hr : s.run = .running) (hs : s.stopSample = false) (hf : s.fetchWord = some w) (hd : decode w = .instr i)
      (hmem : StoredInside s mem) (hh : OwnHalt i s h) :
      StepEnds s (({ s.afterSample with x := x, mem := mem } : State).commit i.mnemonic p h)

theorem step_ends {s t : State} (h : step s = .next t) : s.cfg.legal = true ∧ StepEnds s t := by
  rcases step_cases s with ⟨_, h1⟩ | ⟨hl, ⟨r, hr, h1⟩ | ⟨hr, ⟨hs, h1⟩ | ⟨hs, ⟨hf, h1⟩ |
    ⟨w, hf, ⟨op, hd, h1⟩ | ⟨hd, h1⟩ | ⟨i, hd, h1⟩⟩⟩⟩⟩ <;> rw [h] at h1
  · cases h1
  · cases h1; exact ⟨hl, .halted r hr⟩
  · cases h1; exact ⟨hl, .stopped hr hs⟩
  · cases h1; exact ⟨hl, .fault _ hr hs (.inl ⟨hf, rfl⟩)⟩
  · cases h1; exact ⟨hl, .fault _ hr hs (.inr ⟨w, hf, .inl ⟨op, hd, rfl⟩⟩)⟩
  · cases h1; exact ⟨hl, .fault _ hr hs (.inr ⟨w, hf, .inr (.inl ⟨hd, rfl⟩)⟩)⟩
  · rcases exec_cases i s.afterSample with ⟨info, hx, h2⟩ | ⟨x, mem, p, hh, h2, hmem, hhalt⟩ <;>
      rw [h2] at h1 <;> cases h1
    · exact ⟨hl, .fault info hr hs (.inr ⟨w, hf, .inr (.inr ⟨i, hd, hx⟩)⟩)⟩
    · exact ⟨hl, .commit w i x mem p hh hr hs hf hd hmem hhalt⟩

/-! ### The run state of a commit (R140, R141) -/

theorem budgetReached_iff (c : Config) (n : Nat) :
    budgetReached c n = true ↔ ∃ k, c.maxInstructions = some k ∧ k ≤ n := by
  unfold budgetReached
  cases c.maxInstructions <;> simp

/-- A commit of a running machine leaves it running, out of budget, or halted by the instruction itself. -/
theorem State.runAfter_cases {i : Instr} {s u : State} {h : Option HaltReason} (hh : OwnHalt i s h)
    (hr : u.run = .running) :
    (u.runAfter h = .running ∧ budgetReached u.cfg (u.icount + 1) = false) ∨
    (u.runAfter h = .halted .budgetExceeded ∧ budgetReached u.cfg (u.icount + 1) = true) ∨
    (u.runAfter h = .halted .breakpoint ∧ i = .ebreak) ∨
    (u.runAfter h = .halted .environmentCall ∧ i = .ecall ∧ s.cfg.ecallMode = .halt) := by
  rcases hh with rfl | ⟨rfl, hi⟩ | ⟨rfl, hi⟩
  · cases hb : budgetReached u.cfg (u.icount + 1) with
    | false => exact .inl ⟨by simp [State.runAfter, hb, hr], rfl⟩
    | true => exact .inr (.inl ⟨by simp [State.runAfter, hb], rfl⟩)
  · exact .inr (.inr (.inl ⟨rfl, hi⟩))
  · exact .inr (.inr (.inr ⟨rfl, hi⟩))

/-! ### The invariant, kept by each end of a step -/

theorem State.Inv.afterSample {s : State} (hi : s.Inv) : s.afterSample.Inv :=
  ⟨hi.legal, hi.memWf, hi.memInside, hi.zeroReg, hi.counted, hi.underBudget, hi.budgetExact, hi.faultAtPc⟩

theorem State.Inv.stopped {s : State} (hi : s.Inv) : ({ s with run := .halted .stopped } : State).Inv :=
  ⟨hi.legal, hi.memWf, hi.memInside, hi.zeroReg, hi.counted, nofun, nofun, nofun⟩

theorem State.Inv.raise {s : State} (hi : s.Inv) (info : FaultInfo) : (s.raise info).Inv where
  legal := hi.legal
  memWf := hi.memWf
  memInside := hi.memInside
  zeroReg := hi.zeroReg
  counted := hi.counted
  underBudget := nofun
  budgetExact := nofun
  faultAtPc d hd := by
    rw [State.raise_run] at hd
    cases hd
    exact ⟨rfl, rfl⟩

theorem StoredInside.wf {s : State} {mem : Memory} (h : StoredInside s mem) (hw : s.mem.wf = true) :
    mem.wf = true := by
  rcases h with rfl | ⟨a, n, v, -, rfl⟩
  · exact hw
  · exact Memory.wf_writeLE s.mem a n v hw

theorem StoredInside.below {s : State} {mem : Memory} (h : StoredInside s mem)
    (hb : s.mem.below s.cfg.memSize = true) : mem.below s.cfg.memSize = true := by
  rcases h with rfl | ⟨a, n, v, hin, rfl⟩
  · exact hb
  · exact Memory.below_writeLE s.mem a n v _ hin hb

theorem traceOk_cons {r : TraceRecord} {rest : List TraceRecord} {n : Nat} (hc : r.count = n + 1)
    (h : traceOk rest n = true) : traceOk (r :: rest) (n + 1) = true := by
  simp [traceOk, hc, h]

/-- The budget is first reached at its own number. -/
theorem maxInstructions_eq_of_budgetReached_succ {c : Config} {n : Nat} (h0 : budgetReached c n = false)
    (h1 : budgetReached c (n + 1) = true) : c.maxInstructions = some (n + 1) := by
  obtain ⟨k, hk, hle⟩ := (budgetReached_iff c (n + 1)).mp h1
  have hgt : n < k := Nat.lt_of_not_le fun h => by simp [(budgetReached_iff c n).mpr ⟨k, hk, h⟩] at h0
  rw [hk, Nat.le_antisymm hle hgt]

theorem State.Inv.commit {i : Instr} {s : State} {x : Vector Word 32} {mem : Memory} {h : Option HaltReason}
    (hi : s.Inv) (hr : s.run = .running) (hmem : StoredInside s mem) (hh : OwnHalt i s h) (m : Mnemonic) (p : Word) :
    (({ s with x := x, mem := mem } : State).commit m p h).Inv := by
  refine ⟨hi.legal, hmem.wf hi.memWf, hmem.below hi.memInside, State.commit_zeroReg _ _ _ _,
    traceOk_cons rfl hi.counted, fun hrun => ?_, fun hrun => ?_, fun d hrun => ?_⟩ <;>
    rcases State.runAfter_cases (u := { s with x := x, mem := mem }) hh hr with
      ⟨he, hb⟩ | ⟨he, hb⟩ | ⟨he, -⟩ | ⟨he, -⟩ <;>
    rw [State.commit_run, he] at hrun <;> cases hrun
  · exact hb
  · exact maxInstructions_eq_of_budgetReached_succ (hi.underBudget hr) hb

/-- Settles O3: a step ends in one of four ways, and each keeps the invariant: nothing changed, stopped, a fault
entered, or one instruction committed over a memory with at most one store inside its bounds. -/
theorem stepKeepsInvariant : Obligations.StepKeepsInvariant := by
  intro s t hi hstep
  obtain ⟨-, hends⟩ := step_ends hstep
  cases hends with
  | halted => exact hi
  | stopped => exact hi.afterSample.stopped
  | fault info => exact hi.afterSample.raise info
  | commit w i x mem p h hr hs hf hd hmem hh => exact hi.afterSample.commit hr hmem hh i.mnemonic p

end Sys2Proof.Machine
end

section
/-! PROOF. The rows of the opcode table: what a matching word decodes to, and back (30_encoding.md R95 to R108). -/

namespace Sys2Proof

/-- The instruction of a row, with the operands that the fields of `w` give (R99). -/
def Mnemonic.read (w : Word) : Mnemonic → Instr
  | .lui => .lui (rdOf w) (imm20Of w)
  | .auipc => .auipc (rdOf w) (imm20Of w)
  | .jal => .jal (rdOf w) (immJ w)
  | .jalr => .jalr (rdOf w) (rs1Of w) (immI w)
  | .beq => .beq (rs1Of w) (rs2Of w) (immB w)
  | .bne => .bne (rs1Of w) (rs2Of w) (immB w)
  | .blt => .blt (rs1Of w) (rs2Of w) (immB w)
  | .bge => .bge (rs1Of w) (rs2Of w) (immB w)
  | .bltu => .bltu (rs1Of w) (rs2Of w) (immB w)
  | .bgeu => .bgeu (rs1Of w) (rs2Of w) (immB w)
  | .lb => .lb (rdOf w) (rs1Of w) (immI w)
  | .lh => .lh (rdOf w) (rs1Of w) (immI w)
  | .lw => .lw (rdOf w) (rs1Of w) (immI w)
  | .lbu => .lbu (rdOf w) (rs1Of w) (immI w)
  | .lhu => .lhu (rdOf w) (rs1Of w) (immI w)
  | .sb => .sb (rs2Of w) (rs1Of w) (immS w)
  | .sh => .sh (rs2Of w) (rs1Of w) (immS w)
  | .sw => .sw (rs2Of w) (rs1Of w) (immS w)
  | .addi => .addi (rdOf w) (rs1Of w) (immI w)
  | .slti => .slti (rdOf w) (rs1Of w) (immI w)
  | .sltiu => .sltiu (rdOf w) (rs1Of w) (immI w)
  | .xori => .xori (rdOf w) (rs1Of w) (immI w)
  | .ori => .ori (rdOf w) (rs1Of w) (immI w)
  | .andi => .andi (rdOf w) (rs1Of w) (immI w)
  | .slli => .slli (rdOf w) (rs1Of w) (shamtOf w)
  | .srli => .srli (rdOf w) (rs1Of w) (shamtOf w)
  | .srai => .srai (rdOf w) (rs1Of w) (shamtOf w)
  | .add => .add (rdOf w) (rs1Of w) (rs2Of w)
  | .sub => .sub (rdOf w) (rs1Of w) (rs2Of w)
  | .sll => .sll (rdOf w) (rs1Of w) (rs2Of w)
  | .slt => .slt (rdOf w) (rs1Of w) (rs2Of w)
  | .sltu => .sltu (rdOf w) (rs1Of w) (rs2Of w)
  | .xor => .xor (rdOf w) (rs1Of w) (rs2Of w)
  | .srl => .srl (rdOf w) (rs1Of w) (rs2Of w)
  | .sra => .sra (rdOf w) (rs1Of w) (rs2Of w)
  | .or => .or (rdOf w) (rs1Of w) (rs2Of w)
  | .and => .and (rdOf w) (rs1Of w) (rs2Of w)
  | .mul => .mul (rdOf w) (rs1Of w) (rs2Of w)
  | .div => .div (rdOf w) (rs1Of w) (rs2Of w)
  | .divu => .divu (rdOf w) (rs1Of w) (rs2Of w)
  | .rem => .rem (rdOf w) (rs1Of w) (rs2Of w)
  | .remu => .remu (rdOf w) (rs1Of w) (rs2Of w)
  | .ecall => .ecall
  | .ebreak => .ebreak
  | .fence => .fence
  | .fenceI => .fenceI
  | .csrrw => .csrrw (rdOf w) (csrOf w) (rs1Of w)
  | .csrrs => .csrrs (rdOf w) (csrOf w) (rs1Of w)
  | .csrrc => .csrrc (rdOf w) (csrOf w) (rs1Of w)
  | .csrrwi => .csrrwi (rdOf w) (csrOf w) (uimmOf w)
  | .csrrsi => .csrrsi (rdOf w) (csrOf w) (uimmOf w)
  | .csrrci => .csrrci (rdOf w) (csrOf w) (uimmOf w)

@[simp] theorem Mnemonic.mnemonic_read (w : Word) (m : Mnemonic) : (m.read w).mnemonic = m := by
  cases m <;> rfl

/-! ### A word under the mask of a row, class by class -/

/-- A row that fixes the opcode and funct3 (and maybe more): its class's table, read at that funct3. -/
theorem decode_of_mask_707F {w v : Word} (c : OpcodeClass) {i : Instr} (h : w &&& 0x0000707F#32 = v)
    (hc : v.extractLsb' 0 7 = c.code) (hi : funct3Of w = v.extractLsb' 12 3 → decodeClass c w = some i) :
    decode w = .instr i := by
  obtain ⟨hop, h3⟩ := fields_of_mask_707F w v h
  exact decode_of_some w c i (hop.trans hc) (hi h3)

/-- A row that fixes the opcode, funct3 and funct7. -/
theorem decode_of_mask_FE00707F {w v : Word} (c : OpcodeClass) {i : Instr} (h : w &&& 0xFE00707F#32 = v)
    (hc : v.extractLsb' 0 7 = c.code)
    (hi : funct3Of w = v.extractLsb' 12 3 → funct7Of w = v.extractLsb' 25 7 → decodeClass c w = some i) :
    decode w = .instr i := by
  obtain ⟨hop, h3, h7⟩ := fields_of_mask_FE00707F w v h
  exact decode_of_some w c i (hop.trans hc) (hi h3 h7)

/-- Every word that fits a row of the opcode table decodes to the row's instruction (R96). -/
theorem decode_of_fits (w : Word) (m : Mnemonic) (h : w &&& m.mask = m.matchWord) : decode w = .instr (m.read w) := by
  cases m with
  | lui => exact decode_of_some w .lui _ (fields_of_mask_7F w _ h) rfl
  | auipc => exact decode_of_some w .auipc _ (fields_of_mask_7F w _ h) rfl
  | jal => exact decode_of_some w .jal _ (fields_of_mask_7F w _ h) rfl
  | jalr => exact decode_of_mask_707F .jalr h rfl fun h3 => by simp only [decodeClass, h3]; rfl
  | beq | bne | blt | bge | bltu | bgeu =>
    exact decode_of_mask_707F .branch h rfl fun h3 => by simp only [decodeClass, decodeBranch, h3]; rfl
  | lb | lh | lw | lbu | lhu =>
    exact decode_of_mask_707F .load h rfl fun h3 => by simp only [decodeClass, decodeLoad, h3]; rfl
  | sb | sh | sw =>
    exact decode_of_mask_707F .store h rfl fun h3 => by simp only [decodeClass, decodeStore, h3]; rfl
  | addi | slti | sltiu | xori | ori | andi =>
    exact decode_of_mask_707F .opImm h rfl fun h3 => by simp only [decodeClass, decodeOpImm, h3]; rfl
  | slli | srli | srai =>
    exact decode_of_mask_FE00707F .opImm h rfl fun h3 h7 => by simp only [decodeClass, decodeOpImm, h3, h7]; rfl
  | add | sub | sll | slt | sltu | xor | srl | sra | or | and | mul | div | divu | rem | remu =>
    exact decode_of_mask_FE00707F .op h rfl fun h3 h7 => by simp only [decodeClass, decodeOp, h3, h7]; rfl
  | fence | fenceI =>
    exact decode_of_mask_707F .miscMem h rfl fun h3 => by simp only [decodeClass, decodeMiscMem, h3]; rfl
  | csrrw | csrrs | csrrc | csrrwi | csrrsi | csrrci =>
    exact decode_of_mask_707F .system h rfl fun h3 => by simp only [decodeClass, decodeSystem, h3]; rfl
  | ecall | ebreak =>
    obtain rfl : w = _ := (BitVec.and_allOnes (x := w)).symm.trans h
    rfl

/-! ### A word that decodes fits the row of its mnemonic -/

theorem fits_of_decodeClass {w : Word} {c : OpcodeClass} {i : Instr} (hop : opcodeOf w = c.code)
    (h : decodeClass c w = some i) : w &&& i.mnemonic.mask = i.mnemonic.matchWord ∧ i = i.mnemonic.read w := by
  cases c with
  | lui | auipc | jal =>
    cases h
    exact ⟨Laws.fits_7F w _ hop, rfl⟩
  | jalr | branch | load | store | miscMem =>
    simp only [decodeClass, decodeBranch, decodeLoad, decodeStore, decodeMiscMem] at h
    split at h <;> cases h
    all_goals
      rename funct3Of w = _ => h3
      exact ⟨Laws.fits_707F w _ _ hop h3, rfl⟩
  | opImm =>
    simp only [decodeClass, decodeOpImm] at h
    split at h
    case h_7 | h_8 =>
      split at h <;> cases h
      all_goals
        rename funct3Of w = _ => h3
        rename funct7Of w = _ => h7
        exact ⟨Laws.fits_FE00707F w _ _ _ hop h3 h7, rfl⟩
    all_goals cases h
    all_goals
      rename funct3Of w = _ => h3
      exact ⟨Laws.fits_707F w _ _ hop h3, rfl⟩
  | op =>
    simp only [decodeClass, decodeOp] at h
    split at h
    case h_4 => cases h
    all_goals split at h <;> cases h
    all_goals
      rename funct3Of w = _ => h3
      rename funct7Of w = _ => h7
      exact ⟨Laws.fits_FE00707F w _ _ _ hop h3 h7, rfl⟩
  | system =>
    simp only [decodeClass, decodeSystem] at h
    split at h
    case h_1 => split_ifs at h <;> cases h <;> subst w <;> exact ⟨rfl, rfl⟩
    all_goals cases h
    all_goals
      rename funct3Of w = _ => h3
      exact ⟨Laws.fits_707F w _ _ hop h3, rfl⟩

/-- A word decodes to an instruction exactly when it fits the row of its mnemonic and has its operands (R96). -/
theorem decode_eq_instr_iff (w : Word) (i : Instr) :
    decode w = .instr i ↔ w &&& i.mnemonic.mask = i.mnemonic.matchWord ∧ i = i.mnemonic.read w := by
  refine ⟨fun h => ?_, fun ⟨hfit, hread⟩ => hread ▸ decode_of_fits w i.mnemonic hfit⟩
  obtain ⟨c, hop, hc⟩ := decode_eq_instr w i h
  exact fits_of_decodeClass hop hc

/-- Settles O10: each row's instruction has the row's mnemonic, and a decoded word fits its row. -/
theorem decodeAgreesWithTheOpcodeTable : Obligations.DecodeAgreesWithTheOpcodeTable := by
  refine fun w m => ⟨?_, fun h => ⟨m.read w, decode_of_fits w m h, m.mnemonic_read w⟩⟩
  rintro ⟨i, hd, rfl⟩
  exact ((decode_eq_instr_iff w i).mp hd).1

/-! ### Encoded instructions (R108) -/

theorem encode_fits : ∀ i : Instr, Laws.EncodeFitsRow.Statement i
  | .lui _ _ => Laws.EncodeFitsRow.lui _ _
  | .auipc _ _ => Laws.EncodeFitsRow.auipc _ _
  | .jal _ _ => Laws.EncodeFitsRow.jal _ _
  | .jalr _ _ _ => Laws.EncodeFitsRow.jalr _ _ _
  | .beq _ _ _ => Laws.EncodeFitsRow.beq _ _ _
  | .bne _ _ _ => Laws.EncodeFitsRow.bne _ _ _
  | .blt _ _ _ => Laws.EncodeFitsRow.blt _ _ _
  | .bge _ _ _ => Laws.EncodeFitsRow.bge _ _ _
  | .bltu _ _ _ => Laws.EncodeFitsRow.bltu _ _ _
  | .bgeu _ _ _ => Laws.EncodeFitsRow.bgeu _ _ _
  | .lb _ _ _ => Laws.EncodeFitsRow.lb _ _ _
  | .lh _ _ _ => Laws.EncodeFitsRow.lh _ _ _
  | .lw _ _ _ => Laws.EncodeFitsRow.lw _ _ _
  | .lbu _ _ _ => Laws.EncodeFitsRow.lbu _ _ _
  | .lhu _ _ _ => Laws.EncodeFitsRow.lhu _ _ _
  | .sb _ _ _ => Laws.EncodeFitsRow.sb _ _ _
  | .sh _ _ _ => Laws.EncodeFitsRow.sh _ _ _
  | .sw _ _ _ => Laws.EncodeFitsRow.sw _ _ _
  | .addi _ _ _ => Laws.EncodeFitsRow.addi _ _ _
  | .slti _ _ _ => Laws.EncodeFitsRow.slti _ _ _
  | .sltiu _ _ _ => Laws.EncodeFitsRow.sltiu _ _ _
  | .xori _ _ _ => Laws.EncodeFitsRow.xori _ _ _
  | .ori _ _ _ => Laws.EncodeFitsRow.ori _ _ _
  | .andi _ _ _ => Laws.EncodeFitsRow.andi _ _ _
  | .slli _ _ _ => Laws.EncodeFitsRow.slli _ _ _
  | .srli _ _ _ => Laws.EncodeFitsRow.srli _ _ _
  | .srai _ _ _ => Laws.EncodeFitsRow.srai _ _ _
  | .add _ _ _ => Laws.EncodeFitsRow.add _ _ _
  | .sub _ _ _ => Laws.EncodeFitsRow.sub _ _ _
  | .sll _ _ _ => Laws.EncodeFitsRow.sll _ _ _
  | .slt _ _ _ => Laws.EncodeFitsRow.slt _ _ _
  | .sltu _ _ _ => Laws.EncodeFitsRow.sltu _ _ _
  | .xor _ _ _ => Laws.EncodeFitsRow.xor _ _ _
  | .srl _ _ _ => Laws.EncodeFitsRow.srl _ _ _
  | .sra _ _ _ => Laws.EncodeFitsRow.sra _ _ _
  | .or _ _ _ => Laws.EncodeFitsRow.or _ _ _
  | .and _ _ _ => Laws.EncodeFitsRow.and _ _ _
  | .mul _ _ _ => Laws.EncodeFitsRow.mul _ _ _
  | .div _ _ _ => Laws.EncodeFitsRow.div _ _ _
  | .divu _ _ _ => Laws.EncodeFitsRow.divu _ _ _
  | .rem _ _ _ => Laws.EncodeFitsRow.rem _ _ _
  | .remu _ _ _ => Laws.EncodeFitsRow.remu _ _ _
  | .ecall => Laws.EncodeFitsRow.ecall
  | .ebreak => Laws.EncodeFitsRow.ebreak
  | .fence => Laws.EncodeFitsRow.fence
  | .fenceI => Laws.EncodeFitsRow.fenceI
  | .csrrw _ _ _ => Laws.EncodeFitsRow.csrrw _ _ _
  | .csrrs _ _ _ => Laws.EncodeFitsRow.csrrs _ _ _
  | .csrrc _ _ _ => Laws.EncodeFitsRow.csrrc _ _ _
  | .csrrwi _ _ _ => Laws.EncodeFitsRow.csrrwi _ _ _
  | .csrrsi _ _ _ => Laws.EncodeFitsRow.csrrsi _ _ _
  | .csrrci _ _ _ => Laws.EncodeFitsRow.csrrci _ _ _

/-- The fields of an encoded word are the operands it was made from. -/
theorem read_encode {i : Instr} (h : i.wellFormed = true) : i.mnemonic.read (encode i) = i := by
  cases i with
  | lui | auipc => simp only [Instr.mnemonic, Mnemonic.read, encode, rdOf_encodeU, imm20Of_encodeU]
  | jal => simp only [Instr.mnemonic, Mnemonic.read, encode, rdOf_encodeJ, immJ_encodeJ _ _ _ h]
  | beq | bne | blt | bge | bltu | bgeu =>
    simp only [Instr.mnemonic, Mnemonic.read, encode, rs1Of_encodeB, rs2Of_encodeB, immB_encodeB _ _ _ _ _ h]
  | sb | sh | sw =>
    simp only [Instr.mnemonic, Mnemonic.read, encode, rs1Of_encodeS, rs2Of_encodeS, immS_encodeS _ _ _ _ _ h]
  | jalr | lb | lh | lw | lbu | lhu | addi | slti | sltiu | xori | ori | andi =>
    simp only [Instr.mnemonic, Mnemonic.read, encode, rdOf_encodeI, rs1Of_encodeI, immI_encodeI _ _ _ _ _ h]
  | slli | srli | srai | add | sub | sll | slt | sltu | xor | srl | sra | or | and | mul | div | divu | rem | remu =>
    simp only [Instr.mnemonic, Mnemonic.read, encode, rdOf_encodeR, rs1Of_encodeR, rs2Of_encodeR, shamtOf_encodeR]
  | csrrw | csrrs | csrrc | csrrwi | csrrsi | csrrci =>
    simp only [Instr.mnemonic, Mnemonic.read, encode, rdOf_encodeI, rs1Of_encodeI, csrOf_encodeI, uimmOf_encodeI]
  | ecall | ebreak | fence | fenceI => rfl

/-- Settles O13: an encoded word fits the row of its mnemonic, so it decodes to that row's instruction, whose operands
are the ones encoded. -/
theorem decodeAfterEncodeIsIdentity : Obligations.DecodeAfterEncodeIsIdentity :=
  fun i h => (decode_of_fits (encode i) i.mnemonic (encode_fits i)).trans (congrArg DecodeResult.instr (read_encode h))

end Sys2Proof
end

section
/-! PROOF. The operands a word gives, and the word they encode (30_encoding.md R89 to
R94, R107, R108). -/

namespace Sys2Proof

open Machine (asSigned)

/-! ### Immediates as signed numbers -/

/-- A bit vector read as signed is the `sext` of its number, as R16 writes it. -/
theorem toInt_eq_asSigned {n : Nat} (b : BitVec (n + 1)) : b.toInt = asSigned (n + 1) b.toNat := by
  have hpow : (2 ^ (n + 1) : Nat) = 2 * 2 ^ n := pow_succ' 2 n
  rw [BitVec.toInt_eq_toNat_cond, asSigned, Nat.add_sub_cancel, hpow]
  split <;> split <;> omega

/-- Settles O7: each immediate is its pattern read as signed, and each pattern is put together from its fragments; the
topmost fragment needs no cut, since the word has no bit above it. -/
theorem immediatesAreAssembledFromTheirFragments : Obligations.ImmediatesAreAssembledFromTheirFragments := by
  intro w
  have hw : w.toNat < 4294967296 := w.isLt
  rw [immI_eq, immS_eq, immB_eq, immJ_eq, toInt_eq_asSigned, toInt_eq_asSigned, toInt_eq_asSigned, toInt_eq_asSigned,
    immIBits_toNat, immSBits_toNat, immBBits_toNat, immJBits_toNat, imm20Of_toNat, shamtOf_val, csrOf_toNat, uimmOf_val]
  refine ⟨congrArg _ ?_, congrArg _ ?_, congrArg _ ?_, congrArg _ ?_, ?_, rfl, ?_, rfl⟩ <;> omega

/-! ### Whatever decodes is well-formed -/

theorem immIOk_toInt (b : BitVec 12) : immIOk b.toInt = true := by
  have hlow : -2048 ≤ b.toInt := b.le_toInt
  have hhigh : b.toInt < 2048 := b.toInt_lt
  simp only [immIOk, Bool.and_eq_true, decide_eq_true_eq]
  omega

theorem immBOk_immB (w : Word) : immBOk (immB w) = true := by
  obtain ⟨heven, hlow, hhigh, -⟩ := branchAndJumpImmediatesAreEvenAndInRange w
  simp [immBOk, heven, hlow, hhigh]

theorem immJOk_immJ (w : Word) : immJOk (immJ w) = true := by
  obtain ⟨-, -, -, heven, hlow, hhigh⟩ := branchAndJumpImmediatesAreEvenAndInRange w
  simp [immJOk, heven, hlow, hhigh]

/-- The operands that a word's fields give are in range, whatever the row. -/
theorem wellFormed_read (w : Word) (m : Mnemonic) : (m.read w).wellFormed = true := by
  cases m with
  | jal => exact immJOk_immJ w
  | beq | bne | blt | bge | bltu | bgeu => exact immBOk_immB w
  | jalr | lb | lh | lw | lbu | lhu | addi | slti | sltiu | xori | ori | andi => exact immIOk_toInt (immIBits w)
  | sb | sh | sw => exact immIOk_toInt (immSBits w)
  | lui | auipc | slli | srli | srai | add | sub | sll | slt | sltu | xor | srl | sra | or | and | mul | div | divu
  | rem | remu | ecall | ebreak | fence | fenceI | csrrw | csrrs | csrrc | csrrwi | csrrsi | csrrci => rfl

/-- Settles O9: a decoded instruction is its row's, with the operands of the word's fields. -/
theorem decodedInstructionsAreWellFormed : Obligations.DecodedInstructionsAreWellFormed := by
  intro w i h
  rw [((decode_eq_instr_iff w i).mp h).2]
  exact wellFormed_read w i.mnemonic

/-! ### A word that fits a row is encoded by the row's instruction -/

theorem encode_read {w : Word} {m : Mnemonic} (h : w &&& m.mask = m.matchWord) (hf : m ≠ .fence) (hfi : m ≠ .fenceI) :
    encode (m.read w) = w := by
  cases m with
  | fence => exact absurd rfl hf
  | fenceI => exact absurd rfl hfi
  | lui => exact encodeU_fields w .lui (fields_of_mask_7F w _ h)
  | auipc => exact encodeU_fields w .auipc (fields_of_mask_7F w _ h)
  | jal => exact encodeJ_fields w .jal (fields_of_mask_7F w _ h)
  | jalr =>
    obtain ⟨hop, h3⟩ := fields_of_mask_707F w _ h
    exact encodeI_fields w .jalr _ hop h3
  | lb | lh | lw | lbu | lhu =>
    obtain ⟨hop, h3⟩ := fields_of_mask_707F w _ h
    exact encodeI_fields w .load _ hop h3
  | addi | slti | sltiu | xori | ori | andi =>
    obtain ⟨hop, h3⟩ := fields_of_mask_707F w _ h
    exact encodeI_fields w .opImm _ hop h3
  | beq | bne | blt | bge | bltu | bgeu =>
    obtain ⟨hop, h3⟩ := fields_of_mask_707F w _ h
    exact encodeB_fields w .branch _ hop h3
  | sb | sh | sw =>
    obtain ⟨hop, h3⟩ := fields_of_mask_707F w _ h
    exact encodeS_fields w .store _ hop h3
  | csrrw | csrrs | csrrc | csrrwi | csrrsi | csrrci =>
    obtain ⟨hop, h3⟩ := fields_of_mask_707F w _ h
    exact encodeI_csr_fields w .system _ hop h3
  | slli | srli | srai =>
    obtain ⟨hop, h3, h7⟩ := fields_of_mask_FE00707F w _ h
    exact encodeR_fields w .opImm _ _ hop h3 h7
  | add | sub | sll | slt | sltu | xor | srl | sra | or | and | mul | div | divu | rem | remu =>
    obtain ⟨hop, h3, h7⟩ := fields_of_mask_FE00707F w _ h
    exact encodeR_fields w .op _ _ hop h3 h7
  | ecall | ebreak => exact h.symm.trans (BitVec.and_allOnes (x := w))

theorem eq_fence_of_mnemonic {i : Instr} (h : i.mnemonic = .fence) : i = .fence := by
  cases i <;> cases h
  rfl

theorem eq_fenceI_of_mnemonic {i : Instr} (h : i.mnemonic = .fenceI) : i = .fenceI := by
  cases i <;> cases h
  rfl

/-- Settles O14: a decoded word fits its row, and every row but the fences' fixes the whole word together with the
operands; the rows of the fences have no operands, so fitting them is all there is. -/
theorem encodeAfterDecodeIsIdentity : Obligations.EncodeAfterDecodeIsIdentity := by
  refine ⟨fun w i hd hf hfi => ?_, fun w => ?_, fun w => ?_⟩
  · obtain ⟨hfit, hread⟩ := (decode_eq_instr_iff w i).mp hd
    rw [hread]
    exact encode_read hfit (mt eq_fence_of_mnemonic hf) (mt eq_fenceI_of_mnemonic hfi)
  · exact (decode_eq_instr_iff w .fence).trans (and_iff_left rfl)
  · exact (decode_eq_instr_iff w .fenceI).trans (and_iff_left rfl)

/-- Settles O15: by evaluation of the Decoder on the fourteen words. -/
theorem sampleWordsDecode : Obligations.SampleWordsDecode := by
  unfold Obligations.SampleWordsDecode
  decide

end Sys2Proof
end

section
/-! PROOF. The words that are no instruction (30_encoding.md R97, R101, R102). -/

namespace Sys2Proof

/-! ### Opcodes outside the map -/

theorem opcodeClass_eq_none_iff (op : BitVec 7) : opcodeClass op = none ↔
    op ∉ [0x37#7, 0x17#7, 0x6F#7, 0x67#7, 0x63#7, 0x03#7, 0x23#7, 0x13#7, 0x33#7, 0x0F#7, 0x73#7] := by
  revert op
  decide

theorem decode_eq_unknownOpcode_iff (w : Word) (op : BitVec 7) :
    decode w = .unknownOpcode op ↔ op = opcodeOf w ∧ opcodeClass op = none := by
  cases hc : opcodeClass (opcodeOf w) with
  | none =>
    rw [decode_of_no_class w hc, DecodeResult.unknownOpcode.injEq]
    exact ⟨fun h => ⟨h.symm, h ▸ hc⟩, fun h => h.1.symm⟩
  | some c =>
    rw [decode_of_class w c (code_of_opcodeClass _ _ hc)]
    refine ⟨fun h => ?_, fun ⟨hop, hnone⟩ => ?_⟩
    · split at h <;> cases h
    · rw [hop, hc] at hnone
      cases hnone

/-- Settles O11: only a word without a class has an unknown opcode, its own; the list holds the 11 opcodes with one. -/
theorem unknownOpcodeExactlyOutsideTheMap : Obligations.UnknownOpcodeExactlyOutsideTheMap := by
  intro w op
  rw [decode_eq_unknownOpcode_iff, opcodeClass_eq_none_iff, ← BitVec.toNat_inj, opcodeOf_toNat]

/-! ### Known opcodes with no row -/

theorem decode_eq_unknown_iff (w : Word) :
    decode w = .unknown ↔ ∃ c : OpcodeClass, opcodeOf w = c.code ∧ decodeClass c w = none := by
  refine ⟨fun h => ?_, fun ⟨c, hop, hc⟩ => by rw [decode_of_class w c hop, hc]⟩
  cases hc : opcodeClass (opcodeOf w) with
  | none =>
    rw [decode_of_no_class w hc] at h
    cases h
  | some c =>
    have hop : opcodeOf w = c.code := code_of_opcodeClass _ _ hc
    refine ⟨c, hop, ?_⟩
    rw [decode_of_class w c hop] at h
    split at h
    · cases h
    · assumption

theorem exists_opcodeClass_iff {p : OpcodeClass → Prop} : (∃ c, p c) ↔
    p .lui ∨ p .auipc ∨ p .jal ∨ p .jalr ∨ p .branch ∨ p .load ∨ p .store ∨ p .opImm ∨ p .op ∨ p .miscMem ∨
      p .system := by
  refine ⟨fun ⟨c, hc⟩ => by cases c <;> simp [hc], fun h => ?_⟩
  rcases h with h | h | h | h | h | h | h | h | h | h | h <;> exact ⟨_, h⟩

theorem funct3_cases (f : BitVec 3) : f = 0 ∨ f = 1 ∨ f = 2 ∨ f = 3 ∨ f = 4 ∨ f = 5 ∨ f = 6 ∨ f = 7 := by
  revert f
  decide

theorem decodeJalr_eq_none_iff (w : Word) : decodeClass .jalr w = none ↔ funct3Of w ≠ 0 := by
  rcases funct3_cases (funct3Of w) with h | h | h | h | h | h | h | h <;> simp [decodeClass, h]

theorem decodeBranch_eq_none_iff (w : Word) : decodeBranch w = none ↔ funct3Of w = 2 ∨ funct3Of w = 3 := by
  rcases funct3_cases (funct3Of w) with h | h | h | h | h | h | h | h <;> simp [decodeBranch, h]

theorem decodeLoad_eq_none_iff (w : Word) :
    decodeLoad w = none ↔ funct3Of w = 3 ∨ funct3Of w = 6 ∨ funct3Of w = 7 := by
  rcases funct3_cases (funct3Of w) with h | h | h | h | h | h | h | h <;> simp [decodeLoad, h]

theorem decodeStore_eq_none_iff (w : Word) : decodeStore w = none ↔
    funct3Of w = 3 ∨ funct3Of w = 4 ∨ funct3Of w = 5 ∨ funct3Of w = 6 ∨ funct3Of w = 7 := by
  rcases funct3_cases (funct3Of w) with h | h | h | h | h | h | h | h <;> simp [decodeStore, h]

theorem decodeMiscMem_eq_none_iff (w : Word) : decodeMiscMem w = none ↔ funct3Of w ≠ 0 ∧ funct3Of w ≠ 1 := by
  rcases funct3_cases (funct3Of w) with h | h | h | h | h | h | h | h <;> simp [decodeMiscMem, h]

theorem decodeSystem_eq_none_iff (w : Word) : decodeSystem w = none ↔
    funct3Of w = 4 ∨ (funct3Of w = 0 ∧ w ≠ 0x00000073#32 ∧ w ≠ 0x00100073#32) := by
  rcases funct3_cases (funct3Of w) with h | h | h | h | h | h | h | h <;> simp [decodeSystem, h]
  split_ifs <;> simp [*]

theorem decodeOpImm_eq_none_iff (w : Word) : decodeOpImm w = none ↔
    (funct3Of w = 1 ∧ funct7Of w ≠ 0) ∨ (funct3Of w = 5 ∧ funct7Of w ≠ 0 ∧ funct7Of w ≠ 0x20#7) := by
  rcases funct3_cases (funct3Of w) with h | h | h | h | h | h | h | h <;> simp [decodeOpImm, h]
  · split <;> simp_all
  · split <;> simp_all

theorem decodeOp_eq_none_iff (w : Word) : decodeOp w = none ↔
    (funct7Of w ≠ 0 ∧ funct7Of w ≠ 0x20#7 ∧ funct7Of w ≠ 1) ∨
    (funct7Of w = 0x20#7 ∧ funct3Of w ≠ 0 ∧ funct3Of w ≠ 5) ∨
    (funct7Of w = 1 ∧ (funct3Of w = 1 ∨ funct3Of w = 2 ∨ funct3Of w = 3)) := by
  unfold decodeOp
  split
  case h_4 => simp_all
  all_goals rcases funct3_cases (funct3Of w) with h | h | h | h | h | h | h | h <;> simp_all

/-- Settles O12: a word decodes to unknown when the dispatch table of its class has no row for it; class by class, these
are the listed combinations. -/
theorem unknownMnemonicExactlyTheListedForms : Obligations.UnknownMnemonicExactlyTheListedForms := by
  intro w
  rw [decode_eq_unknown_iff, exists_opcodeClass_iff, decodeJalr_eq_none_iff]
  simp only [decodeClass, decodeBranch_eq_none_iff, decodeLoad_eq_none_iff, decodeStore_eq_none_iff,
    decodeOpImm_eq_none_iff, decodeOp_eq_none_iff, decodeMiscMem_eq_none_iff, decodeSystem_eq_none_iff,
    OpcodeClass.code, reduceCtorEq, and_false, false_or]

end Sys2Proof
end

section
/-! PROOF. Reset, launch, and the run in the invariant (40_step_cycle.md R142, R143; 70_reset_and_hazards.md R320,
R321). -/

namespace Sys2Proof.Machine

/-! ### Reset -/

theorem State.getReg_resetWith (c : Config) (r : Reg) :
    (State.resetWith c).getReg r = if r = 2 then BitVec.ofNat 32 c.memSize else 0 := by
  have hx : (State.resetWith c).x = (Vector.replicate 32 (0 : Word)).set 2 (BitVec.ofNat 32 c.memSize) := rfl
  by_cases h0 : r = 0
  · subst h0
    rfl
  · have hset := get_set (Vector.replicate 32 0) 2 r (BitVec.ofNat 32 c.memSize)
    rw [State.getReg_of_ne _ r h0, hx]
    refine hset.trans ?_
    simp [Vector.get]

/-- Settles O1: register 2 is the only one set after the zeros, and every other piece is the record's own field. -/
theorem resetSetsEveryPieceOfState : Obligations.ResetSetsEveryPieceOfState := by
  refine ⟨fun c => ⟨State.getReg_resetWith c, rfl, rfl, rfl, rfl, rfl, fun _ => rfl⟩, fun s p => ?_, ?_⟩
  · exact ⟨State.getReg_resetWith { s.cfg with startPc := p }, rfl, rfl, rfl, rfl, rfl, fun _ => rfl⟩
  · exact ⟨rfl, rfl, rfl, rfl, rfl, rfl, rfl, rfl, rfl⟩

theorem budgetReached_zero_of_legal {c : Config} (h : c.legal = true) : budgetReached c 0 = false := by
  obtain ⟨-, -, hbudget, -⟩ := (Config.legal_iff c).mp h
  rw [← Bool.not_eq_true, budgetReached_iff]
  rintro ⟨k, hk, hle⟩
  exact hbudget (Nat.le_zero.mp hle ▸ hk)

theorem State.inv_resetWith {c : Config} (h : c.legal = true) : (State.resetWith c).Inv := by
  obtain ⟨-, -, -, hwf, hbelow, -⟩ := (Config.legal_iff c).mp h
  exact ⟨h, hwf, hbelow, rfl, rfl, fun _ => budgetReached_zero_of_legal h, nofun, nofun⟩

/-- Settles O2: the parameters' limits are what the invariant asks of memory and the budget at reset. -/
theorem resetSatisfiesInvariant : Obligations.ResetSatisfiesInvariant :=
  ⟨fun _ h => State.inv_resetWith h, State.inv_resetWith (by decide)⟩

/-! ### Totality -/

theorem exec_next (i : Instr) (s : State) : ∃ t : State, exec i s = .next t := by
  rcases exec_cases i s with ⟨_, _, h⟩ | ⟨_, _, _, _, h, _⟩ <;> exact ⟨_, h⟩

theorem step_next {s : State} (hl : s.cfg.legal = true) : ∃ t : State, step s = .next t := by
  rcases step_cases s with ⟨hill, _⟩ | ⟨_, ⟨_, _, h⟩ | ⟨_, ⟨_, h⟩ | ⟨_, ⟨_, h⟩ |
    ⟨_, _, ⟨_, _, h⟩ | ⟨_, h⟩ | ⟨i, _, h⟩⟩⟩⟩⟩
  · cases hl.symm.trans hill
  · exact ⟨_, h⟩
  · exact ⟨_, h⟩
  · exact ⟨_, h⟩
  · exact ⟨_, h⟩
  · exact ⟨_, h⟩
  · exact h ▸ exec_next i s.afterSample

/-- Settles O21: every way an instruction or a step of a legal machine can end is a next state. -/
theorem legalMachineAlwaysSteps : Obligations.LegalMachineAlwaysSteps :=
  ⟨exec_next, fun _ => step_next, fun _ => step_of_not_legal, fun s => Config.legal_iff s.cfg⟩

/-! ### The run -/

theorem State.Inv.withStops {s : State} (hi : s.Inv) (stops : List Bool) : ({ s with stops := stops } : State).Inv :=
  ⟨hi.legal, hi.memWf, hi.memInside, hi.zeroReg, hi.counted, hi.underBudget, hi.budgetExact, hi.faultAtPc⟩

theorem State.Inv.writeBytes {s : State} (hi : s.Inv) (hr : s.run = .running) {bytes : List Byte}
    (hfit : bytes.length ≤ s.cfg.memSize) : ({ s with mem := s.mem.writeBytes 0 bytes } : State).Inv :=
  ⟨hi.legal, Memory.wf_writeBytes s.mem 0 bytes hi.memWf,
    Memory.below_writeBytes s.mem 0 s.cfg.memSize bytes (by omega) hi.memInside, hi.zeroReg, hi.counted, hi.underBudget,
    hi.budgetExact, fun d hd => by cases hr.symm.trans hd⟩

theorem coreRun_succ_of_next {M : Host.Core} (k : Nat) {s t : M.State} (h : M.step s = .next t) :
    Host.Core.run M (k + 1) s = Host.Core.run M k t := by
  rw [Host.Core.run, h]

/-- From a state in the invariant every run answers a next state, again in the invariant. -/
theorem run_next_of_inv (k : Nat) {s : State} (hi : s.Inv) :
    ∃ t : State, Host.Core.run core k s = .next t ∧ t.Inv := by
  induction k generalizing s with
  | zero => exact ⟨s, rfl, hi⟩
  | succ k ih =>
    obtain ⟨u, hu⟩ := step_next hi.legal
    obtain ⟨t, ht, hti⟩ := ih (stepKeepsInvariant s u hi hu)
    exact ⟨t, (coreRun_succ_of_next (M := core) k hu).trans ht, hti⟩

theorem launch_of_le {c : Config} {bytes : List Byte} (hl : c.legal = true) (hfit : bytes.length ≤ c.memSize) :
    launch c bytes = .next { State.resetWith c with mem := c.initMem.writeBytes 0 bytes } :=
  State.loadImage_of_le hl rfl hfit

/-- Settles O4: the launched state is reset with the image written inside memory, and the invariant carries the run. -/
theorem launchedRunNeverSticks : Obligations.LaunchedRunNeverSticks := by
  intro c bytes samples k hl hfit
  have hi := ((State.inv_resetWith hl).writeBytes rfl hfit).withStops samples
  obtain ⟨t, hrun, ht⟩ := run_next_of_inv k hi
  exact ⟨_, t, launch_of_le hl hfit, hrun, ht⟩

end Sys2Proof.Machine
end

section
/-! PROOF. What one step runs, commits, and keeps (40_step_cycle.md R130 to R142; 60_exceptions.md R291 to R298). -/

namespace Sys2Proof.Machine

/-- Settles O16: the four bytes at `pc` are the word the fetch reads. -/
theorem stepRunsTheDecodedInstruction : Obligations.StepRunsTheDecodedInstruction :=
  fun s _ hl hr hs hin hd => step_of_instr hl hr hs (s.fetchWord_of_le hin) hd

/-- Settles O17: a legal machine's step looks at the run state first. -/
theorem haltedMachineDoesNotChange : Obligations.HaltedMachineDoesNotChange := fun _ _ => step_of_halted

/-- Settles O20: the fetched word is the diagnostic's, and only a word without a class has an unknown opcode. -/
theorem undecodableWordsRaiseTheirFault : Obligations.UndecodableWordsRaiseTheirFault := by
  intro s w hl hr hs hf
  refine ⟨fun op hd => ⟨((unknownOpcodeExactlyOutsideTheMap w op).mp hd).1, ?_⟩, fun hd => ?_⟩
  · rw [step_of_unknownOpcode hl hr hs hf hd, State.raise_eq_faulted, State.fetchWord_afterSample, hf]
    rfl
  · rw [step_of_unknown hl hr hs hf hd, State.raise_eq_faulted, State.fetchWord_afterSample, hf]
    rfl

/-- Settles O28: each end of a step takes the sample exactly when the machine runs, and none touches the parameters. -/
theorem stepKeepsTheParameters : Obligations.StepKeepsTheParameters := by
  intro s t hstep
  obtain ⟨-, hends⟩ := step_ends hstep
  cases hends with
  | halted r hr => exact ⟨rfl, fun h => (nomatch hr.symm.trans h), fun _ => rfl⟩
  | stopped hr | fault _ hr | commit _ _ _ _ _ _ hr => exact ⟨rfl, fun _ => rfl, fun h => absurd hr h⟩

/-- Settles O23: a commit is of the word at `pc`; every other end leaves what the program can see. -/
theorem stepCommitsAtMostOneInstruction : Obligations.StepCommitsAtMostOneInstruction := by
  intro s t hstep
  obtain ⟨-, hends⟩ := step_ends hstep
  cases hends with
  | halted | stopped | fault => exact .inl ⟨rfl, rfl, rfl, rfl, rfl⟩
  | commit w i x mem p h hr hs hf hd => exact .inr ⟨rfl, hr, State.commit_zeroReg _ _ _ _, w, i, hf, hd, rfl⟩

/-- Settles O22: of the ends of a running machine's step only fault entry leaves a fault. -/
theorem faultingStepChangesOnlyTheRunState : Obligations.FaultingStepChangesOnlyTheRunState := by
  intro s t d hr hstep hrun
  obtain ⟨hl, hends⟩ := step_ends hstep
  cases hends with
  | halted r hr' => cases hr.symm.trans hr'
  | stopped => cases hrun
  | fault info =>
    rw [State.raise_run] at hrun
    cases hrun
    exact ⟨rfl, rfl, rfl, step_of_halted hl rfl⟩
  | commit w i x mem p h hr' hs hf hd hmem hh =>
    rw [State.commit_run] at hrun
    rcases State.runAfter_cases (u := { s.afterSample with x := x, mem := mem }) hh hr with
      ⟨he, -⟩ | ⟨he, -⟩ | ⟨he, -⟩ | ⟨he, -⟩ <;> cases he.symm.trans hrun

/-! ### Causes of a halt -/

theorem StepFault.unknownOpcode {s : State} {op : BitVec 7} (h : StepFault s (.unknownOpcode op)) :
    ∃ w, s.fetchWord = some w ∧ decode w = .unknownOpcode op := by
  rcases h with ⟨_, h⟩ | ⟨w, hf, ⟨op', hd, h⟩ | ⟨_, h⟩ | ⟨i, _, ⟨_, _, _, _, _, h⟩ | ⟨_, h⟩⟩⟩ <;> cases h
  exact ⟨w, hf, hd⟩

theorem StepFault.unknownFunct {s : State} (h : StepFault s .unknownFunct) :
    ∃ w, s.fetchWord = some w ∧ decode w = .unknown := by
  rcases h with ⟨_, h⟩ | ⟨w, hf, ⟨op', _, h⟩ | ⟨hd, h⟩ | ⟨i, _, ⟨_, _, _, _, _, h⟩ | ⟨_, h⟩⟩⟩ <;> cases h
  exact ⟨w, hf, hd⟩

theorem State.memSize_lt_of_fetchWord_none {s : State} (h : s.fetchWord = none) : s.cfg.memSize < s.pc.toNat + 4 :=
  Nat.lt_of_not_le fun hin => by cases (s.fetchWord_of_le hin).symm.trans h

theorem StepFault.memoryFault {s : State} {a : Word} {n : Nat} (h : StepFault s (.memoryFault a n)) :
    s.cfg.memSize < a.toNat + n ∧
      ((s.fetchWord = none ∧ a = s.pc ∧ n = 4) ∨
        ∃ w i rs1 imm, s.fetchWord = some w ∧ decode w = .instr i ∧
          (loadOf i = some (rs1, imm, n) ∨ storeOf i = some (rs1, imm, n)) ∧ a = s.effAddr rs1 imm) := by
  rcases h with ⟨hf, h⟩ | ⟨w, hf, ⟨_, _, h⟩ | ⟨_, h⟩ | ⟨i, hd, ⟨rs1, imm, n', hacc, hout, h⟩ | ⟨_, h⟩⟩⟩ <;> cases h
  · exact ⟨State.memSize_lt_of_fetchWord_none hf, .inl ⟨hf, rfl, rfl⟩⟩
  · exact ⟨hout, .inr ⟨w, i, rs1, imm, hf, hd, hacc, rfl⟩⟩

theorem StepFault.unsupportedInstruction {s : State} {m : Mnemonic} (h : StepFault s (.unsupportedInstruction m)) :
    m ∈ csrMnemonics ∧ ∃ w i, s.fetchWord = some w ∧ decode w = .instr i ∧ i.mnemonic = m := by
  rcases h with ⟨_, h⟩ | ⟨w, hf, ⟨_, _, h⟩ | ⟨_, h⟩ | ⟨i, hd, ⟨_, _, _, _, _, h⟩ | ⟨hm, h⟩⟩⟩ <;> cases h
  exact ⟨hm, w, i, hf, hd, rfl⟩

/-- Settles O24: each end of a running machine's step leaves one run state, so a reason to halt names the end, and a
fault names its cause. -/
theorem haltReasonsHaveTheirCauses : Obligations.HaltReasonsHaveTheirCauses := by
  intro s t hr hstep
  obtain ⟨hl, hends⟩ := step_ends hstep
  cases hends with
  | halted r hr' => cases hr.symm.trans hr'
  | stopped _ hs => exact ⟨⟨fun _ => hs, fun _ => rfl⟩, nofun, nofun, nofun, nofun, nofun, nofun, nofun⟩
  | fault info _ hs hf =>
    have hinfo {p d f} (hrun : (s.afterSample.raise info).run = .halted (.fault ⟨p, d, f⟩)) : StepFault s f := by
      cases hrun
      exact hf
    exact ⟨⟨nofun, fun h => by cases h.symm.trans hs⟩, nofun, nofun, nofun, fun _ _ _ h => (hinfo h).unknownOpcode,
      fun _ _ h => (hinfo h).unknownFunct, fun _ _ _ _ h => (hinfo h).memoryFault,
      fun _ _ _ h => (hinfo h).unsupportedInstruction⟩
  | commit w i x mem p h _ hs hf hd hmem hh =>
    have hns : s.stops.headD false ≠ true := fun h => by cases h.symm.trans hs
    rw [State.commit_run]
    rcases State.runAfter_cases (u := { s.afterSample with x := x, mem := mem }) hh hr with
      ⟨he, -⟩ | ⟨he, hb⟩ | ⟨he, rfl⟩ | ⟨he, rfl, hm⟩ <;> rw [he]
    · exact ⟨⟨nofun, fun h => absurd h hns⟩, nofun, nofun, nofun, nofun, nofun, nofun, nofun⟩
    · exact ⟨⟨nofun, fun h => absurd h hns⟩, nofun, nofun, fun _ => ⟨rfl, (budgetReached_iff _ _).mp hb⟩, nofun, nofun,
        nofun, nofun⟩
    · exact ⟨⟨nofun, fun h => absurd h hns⟩, fun _ => ⟨w, hf, hd⟩, nofun, nofun, nofun, nofun, nofun, nofun⟩
    · exact ⟨⟨nofun, fun h => absurd h hns⟩, nofun, fun _ => ⟨hm, w, hf, hd⟩, nofun, nofun, nofun, nofun, nofun⟩

end Sys2Proof.Machine
end

section
/-! PROOF. What an instruction does to a state, apart from the count, the trace and the stop samples; the frames and the
noninterference that follow (10_state.md section 4; 40_step_cycle.md R135 to R141; 60_exceptions.md R306). -/

namespace Sys2Proof.Machine

/-! ### The effect of an instruction -/

/-- The ways an instruction acts: fault entry, a register written, bytes stored, or `pc` alone moved. -/
inductive Effect where
  | fault (info : FaultInfo)
  | write (rd : Reg) (v nextPc : Word)
  | store (addr : Word) (n : Nat) (v : Word)
  | go (nextPc : Word) (halt : Option HaltReason)

/-- The state an effect of the instruction named `m` leaves. -/
def Effect.apply (m : Mnemonic) (s : State) : Effect → State
  | .fault info => s.raise info
  | .write rd v p => (s.setReg rd v).commit m p none
  | .store a n v => ({ s with mem := s.mem.writeLE a.toNat n v.toNat } : State).commit m s.seqPc none
  | .go p h => s.commit m p h

/-- What an effect of `i` may touch: the destination register and the bytes `i` names, and `pc` out of sequence only if
`i` redirects. -/
def Effect.Fits (i : Instr) (s : State) : Effect → Prop
  | .fault _ => True
  | .write rd _ p => destOf s.cfg i = some rd ∧ storeOf i = none ∧ (p = s.seqPc ∨ redirects s.cfg i = true)
  | .store a n _ => ∃ rs1 imm, storeOf i = some (rs1, imm, n) ∧ a = s.effAddr rs1 imm
  | .go p _ => storeOf i = none ∧ (p = s.seqPc ∨ redirects s.cfg i = true)

/-- `s` with another count, trace and list of stop samples. -/
def State.withBookkeeping (s : State) (n : Nat) (tr : List TraceRecord) (stops : List Bool) : State :=
  { s with icount := n, trace := tr, stops := stops }

/-- The instruction has this effect from `s`, and from every state that differs from `s` in the bookkeeping only. -/
structure HasEffect (i : Instr) (s : State) (e : Effect) : Prop where
  exec_eq : exec i s = .next (e.apply i.mnemonic s)
  fits : e.Fits i s
  exec_withBookkeeping : ∀ n tr stops,
    exec i (s.withBookkeeping n tr stops) = .next (e.apply i.mnemonic (s.withBookkeeping n tr stops))

theorem exists_effect_of_load {i : Instr} {n : Nat} {ext : Nat → Word} {rd rs1 : Reg} {imm : Int} (s : State)
    (hdest : destOf s.cfg i = some rd) (hstore : storeOf i = none)
    (he : ∀ u : State, exec i u = .next (u.load i.mnemonic n ext rd rs1 imm)) : ∃ e, HasEffect i s e := by
  rcases Nat.lt_or_ge s.cfg.memSize ((s.effAddr rs1 imm).toNat + n) with hb | hb
  · have hout (u : State) (hu : u.cfg.memSize < (u.effAddr rs1 imm).toNat + n) := (he u).trans
      (congrArg Host.Outcome.next (u.load_of_gt i.mnemonic n ext rd rs1 imm hu))
    exact ⟨.fault _, hout s hb, trivial, fun _ _ _ => hout _ hb⟩
  · have hin (u : State) (hu : (u.effAddr rs1 imm).toNat + n ≤ u.cfg.memSize) := (he u).trans
      (congrArg Host.Outcome.next (u.load_of_le i.mnemonic n ext rd rs1 imm hu))
    exact ⟨.write _ _ _, hin s hb, ⟨hdest, hstore, .inl rfl⟩, fun _ _ _ => hin _ hb⟩

theorem exists_effect_of_store {i : Instr} {n : Nat} {rs2 rs1 : Reg} {imm : Int} (s : State)
    (hstore : storeOf i = some (rs1, imm, n))
    (he : ∀ u : State, exec i u = .next (u.store i.mnemonic n rs2 rs1 imm)) : ∃ e, HasEffect i s e := by
  rcases Nat.lt_or_ge s.cfg.memSize ((s.effAddr rs1 imm).toNat + n) with hb | hb
  · have hout (u : State) (hu : u.cfg.memSize < (u.effAddr rs1 imm).toNat + n) := (he u).trans
      (congrArg Host.Outcome.next (u.store_of_gt i.mnemonic n rs2 rs1 imm hu))
    exact ⟨.fault _, hout s hb, trivial, fun _ _ _ => hout _ hb⟩
  · have hin (u : State) (hu : (u.effAddr rs1 imm).toNat + n ≤ u.cfg.memSize) := (he u).trans
      (congrArg Host.Outcome.next (u.store_of_le i.mnemonic n rs2 rs1 imm hu))
    exact ⟨.store (s.effAddr rs1 imm) n (s.getReg rs2), hin s hb, ⟨rs1, imm, hstore, rfl⟩, fun _ _ _ => hin _ hb⟩

/-- Every instruction has an effect from every state. -/
theorem exists_effect (i : Instr) (s : State) : ∃ e, HasEffect i s e := by
  cases i with
  | lb | lh | lw | lbu | lhu => exact exists_effect_of_load s rfl rfl fun _ => rfl
  | sb | sh | sw => exact exists_effect_of_store s rfl fun _ => rfl
  | csrrw | csrrs | csrrc | csrrwi | csrrsi | csrrci => exact ⟨.fault _, rfl, trivial, fun _ _ _ => rfl⟩
  | beq | bne | blt | bge | bltu | bgeu => exact ⟨.go _ none, rfl, ⟨rfl, .inr rfl⟩, fun _ _ _ => rfl⟩
  | ebreak | fence | fenceI => exact ⟨.go _ _, rfl, ⟨rfl, .inl rfl⟩, fun _ _ _ => rfl⟩
  | jal | jalr => exact ⟨.write _ _ _, rfl, ⟨rfl, rfl, .inr rfl⟩, fun _ _ _ => rfl⟩
  | ecall =>
    cases hm : s.cfg.ecallMode with
    | vector =>
      exact ⟨.write _ _ _, execEcall_vector s hm, ⟨by simp [destOf, hm], rfl, .inr (by simp [redirects, hm])⟩,
        fun n tr stops => execEcall_vector (s.withBookkeeping n tr stops) hm⟩
    | halt =>
      exact ⟨.go _ _, execEcall_halt s hm, ⟨rfl, .inl rfl⟩,
        fun n tr stops => execEcall_halt (s.withBookkeeping n tr stops) hm⟩
  | lui | auipc | addi | slti | sltiu | xori | ori | andi | slli | srli | srai | add | sub | sll | slt | sltu | xor
  | srl | sra | or | and | mul | div | divu | rem | remu =>
    exact ⟨.write _ _ _, rfl, ⟨rfl, rfl, .inl rfl⟩, fun _ _ _ => rfl⟩

/-! ### Frames (R23, R51, R136) -/

/-- Settles O25: an effect that commits without a redirect goes to the next instruction. -/
theorem onlyRedirectsLeaveTheSequence : Obligations.OnlyRedirectsLeaveTheSequence := by
  intro i s t hexec hcount hseq
  obtain ⟨e, he⟩ := exists_effect i s
  cases he.exec_eq.symm.trans hexec
  rw [← s.seqPc_eq]
  cases e with
  | fault => exact absurd hcount (Nat.ne_of_lt (Nat.lt_succ_self s.icount))
  | store => rfl
  | write rd v p =>
    obtain ⟨-, -, hp | hred⟩ := he.fits
    · exact hp
    · cases hseq.symm.trans hred
  | go p h =>
    obtain ⟨-, hp | hred⟩ := he.fits
    · exact hp
    · cases hseq.symm.trans hred

/-- Settles O26: only the effect on a register changes one, and that register is the destination. -/
theorem onlyTheDestinationRegisterChanges : Obligations.OnlyTheDestinationRegisterChanges := by
  intro i s t hexec r hr
  obtain ⟨e, he⟩ := exists_effect i s
  cases he.exec_eq.symm.trans hexec
  cases e with
  | fault => rfl
  | store | go => exact State.getReg_commit _ _ _ _ r
  | write rd v p =>
    obtain ⟨hdest, -⟩ := he.fits
    have hne : r ≠ rd := fun h => hr (h ▸ hdest)
    exact (State.getReg_commit _ _ _ _ r).trans (by simp [State.getReg_setReg, hne])

/-- Settles O27: only the effect on memory changes a byte, and it stores at the effective address. -/
theorem onlyStoresChangeMemory : Obligations.OnlyStoresChangeMemory := by
  intro i s t hexec
  obtain ⟨e, he⟩ := exists_effect i s
  cases he.exec_eq.symm.trans hexec
  cases e with
  | fault | write | go => exact ⟨fun _ _ => rfl, fun _ _ _ _ _ _ => rfl⟩
  | store addr n v =>
    obtain ⟨rs1, imm, hst, rfl⟩ := he.fits
    refine ⟨fun h => (nomatch h.symm.trans hst), fun rs1' imm' n' h a ha => ?_⟩
    cases hst.symm.trans h
    exact (Memory.byteAt_writeLE _ _ _ _ a).trans (if_neg (by omega))

/-! ### What a program cannot observe (R29, R31, R32) -/

theorem Effect.apply_withStops (m : Mnemonic) (s : State) (stops : List Bool) (e : Effect) :
    e.apply m (s.withBookkeeping s.icount s.trace stops) = { e.apply m s with stops := stops } := by
  cases e <;> rfl

/-- Settles O18: the stop check comes first, and nothing after it reads the samples. -/
theorem stopHaltsFirstAndCannotBeObserved : Obligations.StopHaltsFirstAndCannotBeObserved := by
  refine ⟨fun s rest hl hr hstops => ?_, fun s t rest hr hs hstep => ?_⟩
  · rw [step_of_stopped hl hr (by rw [State.stopSample, hstops]; rfl), State.afterSample, hstops]
    rfl
  · rcases step_cases s with ⟨_, h⟩ | ⟨hl, ⟨r, hr', _⟩ | ⟨_, ⟨hs', _⟩ | ⟨_, ⟨hf, h⟩ |
      ⟨w, hf, ⟨op, hd, h⟩ | ⟨hd, h⟩ | ⟨i, hd, h⟩⟩⟩⟩⟩
    · cases hstep.symm.trans h
    · cases hr.symm.trans hr'
    · cases hs.symm.trans hs'
    · cases hstep.symm.trans h
      exact step_of_fetchWord_none hl hr rfl hf
    · cases hstep.symm.trans h
      exact step_of_unknownOpcode hl hr rfl hf hd
    · cases hstep.symm.trans h
      exact step_of_unknown hl hr rfl hf hd
    · obtain ⟨e, he⟩ := exists_effect i s.afterSample
      cases (hstep.symm.trans h).trans he.exec_eq
      rw [← Effect.apply_withStops]
      exact (step_of_instr (s := { s with stops := false :: rest }) hl hr rfl hf hd).trans
        (he.exec_withBookkeeping _ _ rest)

/-- The two states agree in everything a program can see and, if `c` sets no budget, in the run state. -/
def AgreeButBookkeeping (c : Config) (t u : State) : Prop :=
  u.x = t.x ∧ u.pc = t.pc ∧ u.mem = t.mem ∧ u.cfg = t.cfg ∧ u.stops = t.stops ∧
    (c.maxInstructions = none → u.run = t.run)

theorem State.runAfter_congr {s u : State} (hc : u.cfg = s.cfg) (hr : u.run = s.run)
    (h : s.cfg.maxInstructions = none) (halt : Option HaltReason) : u.runAfter halt = s.runAfter halt := by
  cases halt <;> simp [State.runAfter, budgetReached, hc, hr, h]

theorem Effect.apply_agree (m : Mnemonic) (s : State) (n : Nat) (tr : List TraceRecord) (e : Effect) :
    AgreeButBookkeeping s.cfg (e.apply m s) (e.apply m (s.withBookkeeping n tr s.stops)) := by
  cases e with
  | fault => exact ⟨rfl, rfl, rfl, rfl, rfl, fun _ => rfl⟩
  | write | store | go =>
    refine ⟨rfl, rfl, rfl, rfl, rfl, fun h => ?_⟩
    rw [Effect.apply, Effect.apply, State.commit_run, State.commit_run]
    refine State.runAfter_congr ?_ ?_ ?_ _
    · rfl
    · rfl
    · exact h

/-- Settles O29: the step takes the same way in both machines, and an effect reads neither the count nor the trace. -/
theorem countAndTraceAreInvisible : Obligations.CountAndTraceAreInvisible := by
  intro s t n tr hstep
  rcases step_cases s with ⟨_, h⟩ | ⟨hl, ⟨r, hr, h⟩ | ⟨hr, ⟨hs, h⟩ | ⟨hs, ⟨hf, h⟩ |
    ⟨w, hf, ⟨op, hd, h⟩ | ⟨hd, h⟩ | ⟨i, hd, h⟩⟩⟩⟩⟩
  · cases hstep.symm.trans h
  · cases hstep.symm.trans h
    exact ⟨_, step_of_halted hl hr, rfl, rfl, rfl, rfl, rfl, fun _ => rfl⟩
  · cases hstep.symm.trans h
    exact ⟨_, step_of_stopped hl hr hs, rfl, rfl, rfl, rfl, rfl, fun _ => rfl⟩
  · cases hstep.symm.trans h
    exact ⟨_, step_of_fetchWord_none hl hr hs hf, rfl, rfl, rfl, rfl, rfl, fun _ => rfl⟩
  · cases hstep.symm.trans h
    exact ⟨_, step_of_unknownOpcode hl hr hs hf hd, rfl, rfl, rfl, rfl, rfl, fun _ => rfl⟩
  · cases hstep.symm.trans h
    exact ⟨_, step_of_unknown hl hr hs hf hd, rfl, rfl, rfl, rfl, rfl, fun _ => rfl⟩
  · obtain ⟨e, he⟩ := exists_effect i s.afterSample
    cases (hstep.symm.trans h).trans he.exec_eq
    exact ⟨_, (step_of_instr (s := { s with icount := n, trace := tr }) hl hr hs hf hd).trans
      (he.exec_withBookkeeping n tr s.stops.tail), e.apply_agree i.mnemonic s.afterSample n tr⟩

end Sys2Proof.Machine
end

section
/-! PROOF. Memory accesses, and what the fetch and the Disassembler read of memory (20_memory.md R52 to R67;
50_disassembler.md R270; 70_reset_and_hazards.md R332). -/

namespace Sys2Proof.Machine

/-! ### Writes (R54) -/

theorem memStored_of_mem_eq {s t : State} {a n : Nat} {v : Word} (h : t.mem = s.mem.writeLE a n v.toNat) :
    MemStored s t a n v := by
  refine ⟨fun k hk => ?_, fun b hb => ?_⟩
  · rw [h, Memory.byteAt_writeLE, if_pos (by omega), Nat.add_sub_cancel_left, BitVec.toNat_ofNat]
  · rw [h, Memory.byteAt_writeLE, if_neg (by omega)]

theorem State.memWrite_eq_some {s t : State} {addr : Word} {n : Nat} {v : Word} (h : s.memWrite addr n v = some t) :
    addr.toNat + n ≤ s.cfg.memSize ∧ t = { s with mem := s.mem.writeLE addr.toNat n v.toNat } := by
  rcases Nat.lt_or_ge s.cfg.memSize (addr.toNat + n) with hout | hin
  · cases (s.memWrite_of_gt addr n v hout).symm.trans h
  · exact ⟨hin, (Option.some.inj ((s.memWrite_of_le addr n v hin).symm.trans h)).symm⟩

/-- Settles O32: a write inside memory replaces memory by one with the bytes stored, for every width. -/
theorem memWriteStoresExactlyTheBytes : Obligations.MemWriteStoresExactlyTheBytes := fun s addr n v _ =>
  ⟨s.memWrite_of_gt addr n v, fun hin => ⟨_, s.memWrite_of_le addr n v hin, memStored_of_mem_eq rfl, rfl⟩⟩

/-! ### Reads after writes (R60, R63) -/

/-- A read depends on the bytes it reads and on the size of memory alone. -/
theorem State.memRead_congr {s t : State} {b : Word} {k : Nat} (hc : t.cfg = s.cfg)
    (hm : ∀ j, j < k → t.mem.byteAt (b.toNat + j) = s.mem.byteAt (b.toNat + j)) : t.memRead b k = s.memRead b k := by
  rw [State.memRead, State.memRead, State.inBounds, State.inBounds, hc, Memory.readLE_congr t.mem s.mem b.toNat k hm]

/-- Settles O33: the read at the write's own bytes gives the value cut to them; bytes that do not meet them are kept. -/
theorem readAfterWriteReturnsTheValue : Obligations.ReadAfterWriteReturnsTheValue := by
  intro s t addr n v _ hw
  obtain ⟨hin, rfl⟩ := State.memWrite_eq_some hw
  refine ⟨?_, fun b k hapart => State.memRead_congr rfl fun j hj => ?_⟩
  · refine (State.memRead_of_le _ addr n ?_).trans (congrArg some (Memory.readLE_writeLE ..))
    exact hin
  · rw [Memory.byteAt_writeLE, if_neg (by omega)]

/-! ### The boundary (R55) -/

theorem State.access_isSome {s : State} {addr : Word} {n : Nat} (h : addr.toNat + n ≤ s.cfg.memSize) (v : Word) :
    (s.memRead addr n).isSome = true ∧ (s.memWrite addr n v).isSome = true := by
  rw [s.memRead_of_le addr n h, s.memWrite_of_le addr n v h]
  exact ⟨rfl, rfl⟩

theorem State.access_eq_none {s : State} {addr : Word} {n : Nat} (h : s.cfg.memSize < addr.toNat + n) (v : Word) :
    s.memRead addr n = none ∧ s.memWrite addr n v = none :=
  ⟨s.memRead_of_gt addr n h, s.memWrite_of_gt addr n v h⟩

/-- Settles O34: the bound is on the sum of address and width as numbers. -/
theorem accessesEndAtTheBoundary : Obligations.AccessesEndAtTheBoundary := by
  intro s addr v hl
  obtain ⟨hmin, -⟩ := (Config.legal_iff s.cfg).mp hl
  exact ⟨fun h => State.access_isSome (by omega) v, fun h => State.access_eq_none (by omega) v,
    fun h => State.access_isSome (by omega) v, fun h => State.access_eq_none (by omega) v⟩

/-! ### Byte order (R52) -/

/-- A read of `k` bytes, `d` bytes into a wide write that covers them, gives the value's bytes `d` to `d + k - 1`. -/
theorem Memory.readLE_writeLE_of_within (m : Memory) (a v : Nat) {n d k : Nat} (h : d + k ≤ n) :
    Memory.readLE (m.writeLE a n v) (a + d) k = v / 2 ^ (8 * d) % 2 ^ (8 * k) := by
  rw [← Memory.readLE_writeLE m (a + d) k (v / 2 ^ (8 * d))]
  refine Memory.readLE_congr _ _ _ k fun j hj => ?_
  rw [Memory.byteAt_writeLE, Memory.byteAt_writeLE, if_pos (by omega), if_pos (by omega), Nat.div_div_eq_div_mul,
    ← pow_add, show 8 * (a + d + j - a) = 8 * d + 8 * (a + d + j - (a + d)) by omega]

/-- Settles O35: each read covers bytes of the word just stored. -/
theorem storedWordIsLittleEndian : Obligations.StoredWordIsLittleEndian := by
  intro s hsize
  refine ⟨_, s.memWrite_of_le 0 4 0xDEADBEEF#32 hsize, ?_⟩
  have hread (b : Word) (k : Nat) (h : b.toNat + k ≤ 4) :
      ({ s with mem := s.mem.writeLE 0 4 0xDEADBEEF } : State).memRead b k =
        some (0xDEADBEEF / 2 ^ (8 * b.toNat) % 2 ^ (8 * k)) := by
    have hbytes := Memory.readLE_writeLE_of_within s.mem 0 0xDEADBEEF h
    rw [Nat.zero_add] at hbytes
    rw [← hbytes]
    exact State.memRead_of_le _ b k (h.trans hsize)
  exact ⟨hread 0 4 (by decide), hread 0 1 (by decide), hread 1 1 (by decide), hread 2 1 (by decide),
    hread 3 1 (by decide), hread 0 2 (by decide), hread 1 2 (by decide), hread 2 2 (by decide)⟩

/-- `u32` of R16 as a number. -/
theorem toNat_u32 (v : Int) : ((u32 v).toNat : Int) = v % 2 ^ 32 := by
  rw [u32, BitVec.toNat_ofInt]
  exact Int.toNat_of_nonneg (Int.emod_nonneg _ (by decide))

/-- Settles O36: the address is the sum as an integer, cut to 32 bits. -/
theorem effectiveAddressWraps : Obligations.EffectiveAddressWraps := by
  intro s rs1 imm
  rw [s.effAddr_eq]
  exact toNat_u32 _

/-! ### A stored word is fetched (R65, R332) -/

theorem ofNat_toNat_mod (w : Word) : BitVec.ofNat 32 (w.toNat % 2 ^ 32) = w := by
  rw [Nat.mod_eq_of_lt w.isLt, BitVec.ofNat_toNat, BitVec.setWidth_eq]

theorem State.fetchWord_of_stored {s : State} {m : Memory} {w : Word} (hin : s.pc.toNat + 4 ≤ s.cfg.memSize)
    (hm : s.mem = m.writeLE s.pc.toNat 4 w.toNat) : s.fetchWord = some w := by
  rw [State.fetchWord, s.memRead_of_le s.pc 4 hin, hm, Memory.readLE_writeLE, Option.map_some, ofNat_toNat_mod]

/-- Settles O37: a store that commits is in range, its bytes are the word, and the next `pc` is its address. -/
theorem storeIsSeenByTheNextFetch : Obligations.StoreIsSeenByTheNextFetch := by
  intro s t rs2 rs1 imm hexec hcount haddr
  have hstore : exec (.sw rs2 rs1 imm) s = .next (s.store .sw 4 rs2 rs1 imm) := rfl
  cases hstore.symm.trans hexec
  rcases Nat.lt_or_ge s.cfg.memSize ((s.effAddr rs1 imm).toNat + 4) with hout | hin
  · rw [s.store_of_gt _ 4 rs2 rs1 imm hout, State.raise_icount] at hcount
    omega
  · rw [s.store_of_le _ 4 rs2 rs1 imm hin]
    have hpc : s.seqPc = s.effAddr rs1 imm := haddr.symm
    rw [hpc]
    exact State.fetchWord_of_stored (m := s.mem) hin rfl

/-! ### The word the host places (R321) -/

theorem decodeTableWord_toNat {w : Word} {i : Instr} (h : decode w = .instr i) :
    decodeTableWord 32 w.toNat = some i := by
  rw [decodeTableWord, ofNat_toNat_mod, decodeBytes, wordOfBytes_byteOfWord, h, DecodeResult.instr?]

theorem State.withFetchWord_toNat (s : State) (w : Word) : s.withFetchWord 32 w.toNat = s.withWordAtPc w := by
  rw [State.withFetchWord, ofNat_toNat_mod]

/-- Settles O30: the placed word is the one fetched, and its sample is not set. -/
theorem placedWordIsRunNext : Obligations.PlacedWordIsRunNext := by
  intro s w i hl hin hd
  have hf : (s.withWordAtPc w).fetchWord = some w := State.fetchWord_of_stored (m := s.mem) hin rfl
  refine ⟨decodeTableWord_toNat hd, (s.withWordAtPc w).afterSample, ?_, hf, rfl, rfl, rfl, rfl, rfl, rfl, rfl,
    memStored_of_mem_eq rfl⟩
  rw [s.withFetchWord_toNat]
  exact step_of_instr hl rfl rfl hf hd

/-! ### The trace and the listing (R270) -/

theorem State.disassemble_eq_next {s : State} {records : List DisasmRecord} (h : s.disassemble = .next records) :
    records = s.listing := by
  cases hl : s.cfg.legal with
  | true => exact (Host.Outcome.next.inj ((s.disassemble_of_legal hl).symm.trans h)).symm
  | false => cases (s.disassemble_of_not_legal hl).symm.trans h

/-- The word fetched at a listed address is the record's word: one memory, read at one address. -/
theorem disasmRecord_word_of_fetchWord {s : State} {k : Nat} {w : Word} (hpc : s.pc.toNat = 4 * k)
    (hf : s.fetchWord = some w) : (disasmRecord s.mem k).word = w := by
  rcases Nat.lt_or_ge s.cfg.memSize (s.pc.toNat + 4) with hout | hin
  · cases (s.fetchWord_of_gt hout).symm.trans hf
  · rw [State.fetchWord, s.memRead_of_le s.pc 4 hin, hpc] at hf
    exact Option.some.inj hf

/-- Settles O40: the committed word is the record's, and both texts start from what the one Decoder reads from it. -/
theorem traceShowsTheDisassembledMnemonic : Obligations.TraceShowsTheDisassembledMnemonic := by
  intro s t records k hk hdis hpc hstep hcount
  obtain rfl := State.disassemble_eq_next hdis
  rcases stepCommitsAtMostOneInstruction s t hstep with ⟨hsame, -⟩ | ⟨-, -, -, w, i, hf, hd, htrace⟩
  · omega
  · refine ⟨_, i.operands, htrace, rfl, ?_⟩
    rw [State.getElem_listing, disasmRecord_text, disasmRecord_word_of_fetchWord hpc hf, hd, render]

end Sys2Proof.Machine
end

section
/-! PROOF. What the instructions that are no ALU instructions do: upper immediates, jumps, branches, loads, stores, and
the system instructions (41_upper_immediate.md to 45_stores.md; 49_system_fence_csr.md; 60_exceptions.md R300 to R302). -/

namespace Sys2Proof.Machine

/-! ### From the meaning of an instruction to its statement -/

/-- An instruction that writes `rd` and commits. -/
theorem writes_of_exec {i : Instr} {rd : Reg} {v p v' p' : State → Word}
    (he : ∀ s, exec i s = .next ((s.setReg rd (v s)).commit i.mnemonic (p s) none)) (hv : ∀ s, v s = v' s)
    (hp : ∀ s, p s = p' s) : Writes i rd v' p' := by
  intro s
  rw [← hv, ← hp]
  exact ⟨_, he s, s.setReg_commit_spec i.mnemonic rd (v s) (p s)⟩

/-- An instruction that writes `rd` and falls through. -/
theorem computes_of_exec {i : Instr} {rd : Reg} {v v' : State → Word}
    (he : ∀ s, exec i s = .next (s.retire i.mnemonic rd (v s))) (hv : ∀ s, v s = v' s) : Computes i rd v' :=
  writes_of_exec he hv fun _ => rfl

/-- An instruction that moves `pc` and commits. -/
theorem onlyGoesTo_of_exec {i : Instr} {p p' : State → Word}
    (he : ∀ s, exec i s = .next (s.commit i.mnemonic (p s) none)) (hp : ∀ s, p s = p' s) : OnlyGoesTo i p' := by
  intro s
  rw [← hp, ← s.runAfter_none]
  exact ⟨_, he s, s.commit_spec i.mnemonic (p s) none⟩

theorem onlyGoesTo_of_branch {i : Instr} {imm : Int} {taken : State → Bool} {P : State → Prop} [DecidablePred P]
    (he : ∀ s, exec i s = .next (s.branch i.mnemonic (taken s) imm)) (ht : ∀ s, taken s = true ↔ P s) :
    OnlyGoesTo i fun s =>
      if P s then BitVec.ofInt 32 (s.pc.toNat + imm) else BitVec.ofNat 32 (s.pc.toNat + 4) := by
  refine onlyGoesTo_of_exec he fun s => ?_
  rw [s.relTarget_eq, s.seqPc_eq]
  exact if_congr (ht s) rfl rfl

theorem loadsAs_of_exec {i : Instr} {n : Nat} {rd rs1 : Reg} {imm : Int} {ext : Nat → Word}
    {value : (Nat → Nat) → Int} (he : ∀ s, exec i s = .next (s.load i.mnemonic n ext rd rs1 imm))
    (hv : ∀ (m : Memory) (a : Nat), ext (m.readLE a n) = BitVec.ofInt 32 (value fun k => (m.byteAt (a + k)).toNat)) :
    LoadsAs i n rd rs1 imm value := by
  refine fun s => ⟨fun hin => ?_, fun hout => ?_⟩
  · rw [← hv, he s, s.load_of_le i.mnemonic n ext rd rs1 imm hin]
    exact ⟨_, rfl, s.setReg_commit_spec i.mnemonic rd _ s.seqPc⟩
  · rw [he s, s.load_of_gt i.mnemonic n ext rd rs1 imm hout, State.raise_eq_faulted]

theorem storesAs_of_exec {i : Instr} {n : Nat} {rs2 rs1 : Reg} {imm : Int}
    (he : ∀ s, exec i s = .next (s.store i.mnemonic n rs2 rs1 imm)) : StoresAs i n rs2 rs1 imm := by
  refine fun s => ⟨fun hin => ?_, fun hout => ?_⟩
  · rw [he s, s.store_of_le i.mnemonic n rs2 rs1 imm hin]
    refine ⟨_, rfl, fun r => State.getReg_commit _ _ _ _ r, memStored_of_mem_eq rfl,
      ⟨rfl, State.commit_zeroReg _ _ _ _, rfl, rfl, s.runAfter_none, rfl, rfl⟩⟩
  · rw [he s, s.store_of_gt i.mnemonic n rs2 rs1 imm hout, State.raise_eq_faulted]

/-! ### Upper immediates and jumps -/

/-- Settles O41: `imm20 ++ 0` is the product with 4096, and the sum with `pc` is the word of the sum of numbers. -/
theorem upperImmediateResults : Obligations.UpperImmediateResults := by
  refine ⟨fun w => decode_of_fits w .lui, fun w => decode_of_fits w .auipc,
    fun rd imm20 => computes_of_exec (fun _ => rfl) fun _ => upperImm_eq imm20,
    fun rd imm20 => computes_of_exec (fun _ => rfl) fun s => ?_⟩
  rw [upperImm_eq, BitVec.ofNat_add, BitVec.ofNat_toNat, BitVec.setWidth_eq]

/-- Settles O42: the link and the target are sums with `pc`, as words and as numbers cut to 32 bits alike. -/
theorem jalLinksAndJumps : Obligations.JalLinksAndJumps :=
  ⟨fun w => decode_of_fits w .jal,
    fun _ imm => writes_of_exec (fun _ => rfl) State.seqPc_eq fun s => s.relTarget_eq imm⟩

/-- Settles O43: the target is computed from the state before the link is written. -/
theorem jalrLinksAndJumpsToTheExactSum : Obligations.JalrLinksAndJumpsToTheExactSum :=
  ⟨fun w => decode_of_fits w .jalr,
    fun _ rs1 imm => writes_of_exec (fun _ => rfl) State.seqPc_eq fun s => s.effAddr_eq rs1 imm⟩

/-! ### Branches (R170 to R176) -/

theorem condEq_iff (a b : Word) : condEq a b = true ↔ a = b := decide_eq_true_iff
theorem condNe_iff (a b : Word) : condNe a b = true ↔ a ≠ b := decide_eq_true_iff
theorem condLt_iff (a b : Word) : condLt a b = true ↔ a.toInt < b.toInt := BitVec.slt_iff_toInt_lt
theorem condGe_iff (a b : Word) : condGe a b = true ↔ a.toInt ≥ b.toInt := BitVec.sle_iff_toInt_le
theorem condLtu_iff (a b : Word) : condLtu a b = true ↔ a.toNat < b.toNat := BitVec.ult_iff_lt
theorem condGeu_iff (a b : Word) : condGeu a b = true ↔ a.toNat ≥ b.toNat := BitVec.ule_iff_le

theorem decode_branch_unknown {w : Word}
    (h : w &&& 0x0000707F#32 = 0x00002063#32 ∨ w &&& 0x0000707F#32 = 0x00003063#32) :
    decode w = .unknown := by
  refine (decode_eq_unknown_iff w).mpr ⟨.branch, ?_⟩
  rcases h with h | h
  · obtain ⟨hop, h3⟩ := fields_of_mask_707F w _ h
    exact ⟨hop, (decodeBranch_eq_none_iff w).mpr (.inl h3)⟩
  · obtain ⟨hop, h3⟩ := fields_of_mask_707F w _ h
    exact ⟨hop, (decodeBranch_eq_none_iff w).mpr (.inr h3)⟩

/-- Settles O44: each branch is taken exactly when its test on the two registers holds. -/
theorem branchesTestAndGo : Obligations.BranchesTestAndGo := by
  refine ⟨⟨fun w => decode_of_fits w .beq, fun w => decode_of_fits w .bne, fun w => decode_of_fits w .blt,
    fun w => decode_of_fits w .bge, fun w => decode_of_fits w .bltu, fun w => decode_of_fits w .bgeu,
    fun _ => decode_branch_unknown⟩, fun rs1 rs2 imm => ⟨?_, ?_, ?_, ?_, ?_, ?_⟩⟩
  · exact onlyGoesTo_of_branch (fun _ => rfl) fun _ => condEq_iff _ _
  · exact onlyGoesTo_of_branch (fun _ => rfl) fun _ => condNe_iff _ _
  · exact onlyGoesTo_of_branch (fun _ => rfl) fun _ => condLt_iff _ _
  · exact onlyGoesTo_of_branch (fun _ => rfl) fun _ => condGe_iff _ _
  · exact onlyGoesTo_of_branch (fun _ => rfl) fun _ => condLtu_iff _ _
  · exact onlyGoesTo_of_branch (fun _ => rfl) fun _ => condGeu_iff _ _

/-! ### Loads and stores (R180 to R193) -/

theorem sext_of_lt {n v : Nat} (h : v < 2 ^ (n + 1)) : sext (n + 1) v = asSigned (n + 1) v := by
  rw [sext, toInt_eq_asSigned, BitVec.toNat_ofNat, Nat.mod_eq_of_lt h]

theorem zeroExtended_readLE (m : Memory) (a n : Nat) :
    zeroExtended n (m.readLE a n) = BitVec.ofInt 32 (m.readLE a n) := by
  rw [zeroExtended, zext, Nat.mod_eq_of_lt (m.readLE_lt a n), u32]

/-- Settles O45: the bytes read make a number below the width's bound, which is extended by its sign or by zeros. -/
theorem loadsReadAndExtend : Obligations.LoadsReadAndExtend := by
  refine ⟨⟨fun w => decode_of_fits w .lb, fun w => decode_of_fits w .lh, fun w => decode_of_fits w .lw,
    fun w => decode_of_fits w .lbu, fun w => decode_of_fits w .lhu⟩, fun rd rs1 imm => ⟨?_, ?_, ?_, ?_, ?_⟩⟩
  · exact loadsAs_of_exec (fun _ => rfl) fun m a => congrArg (BitVec.ofInt 32) (sext_of_lt (n := 7) (m.readLE_lt a 1))
  · exact loadsAs_of_exec (fun _ => rfl) fun m a => congrArg (BitVec.ofInt 32) (sext_of_lt (n := 15) (m.readLE_lt a 2))
  · exact loadsAs_of_exec (fun _ => rfl) fun m a => by
      rw [zeroExtended_readLE, readLE_four]
      rfl
  · exact loadsAs_of_exec (fun _ => rfl) fun m a => zeroExtended_readLE m a 1
  · exact loadsAs_of_exec (fun _ => rfl) fun m a => zeroExtended_readLE m a 2

/-- Settles O46: each store is one wide write of the register, or fault entry before it. -/
theorem storesWriteTheLowBytes : Obligations.StoresWriteTheLowBytes :=
  ⟨⟨fun w => decode_of_fits w .sb, fun w => decode_of_fits w .sh, fun w => decode_of_fits w .sw⟩,
    fun _ _ _ => ⟨storesAs_of_exec fun _ => rfl, storesAs_of_exec fun _ => rfl, storesAs_of_exec fun _ => rfl⟩⟩

/-! ### System instructions (R250 to R261, R300 to R302) -/

/-- Settles O55: the trap entry writes the link register and commits at the trap vector. -/
theorem ecallEntersTheTrapVector : Obligations.EcallEntersTheTrapVector := by
  refine ⟨by decide, fun s hm => ⟨_, execEcall_vector s hm, ?_⟩⟩
  rw [← s.seqPc_eq]
  exact s.setReg_commit_spec .ecall s.cfg.ecallLink s.seqPc s.cfg.trapVector

/-- Settles O56: the commit's own halt comes before the budget. -/
theorem ecallInHaltModeEndsTheRun : Obligations.EcallInHaltModeEndsTheRun := fun s hm =>
  ⟨_, execEcall_halt s hm, s.commit_spec .ecall s.seqPc (some .environmentCall)⟩

/-- Settles O57: the commit's own halt comes before the budget. -/
theorem ebreakCommitsAndHalts : Obligations.EbreakCommitsAndHalts :=
  ⟨by decide, fun s => ⟨_, rfl, s.commit_spec .ebreak s.seqPc (some .breakpoint)⟩⟩

theorem sameRegs_of_regWritten_zero {s t : State} {v : Word} (h : RegWritten s t 0 v) : SameRegs s t :=
  fun r => (h r).trans (if_neg fun hr => hr.2 rfl)

/-- Settles O58: the link register holds the address after the `ecall`, or reads 0 when it is register 0, and `jalr`
goes where it says. -/
theorem jalrReturnsFromTheTrap : Obligations.JalrReturnsFromTheTrap := by
  intro s t u hm hexec hkept
  obtain ⟨t', hexec', hwritten, -⟩ := ecallEntersTheTrapVector.2 s hm
  cases hexec'.symm.trans hexec
  obtain ⟨v, hv, hregs, hmem, hcommit⟩ := jalrLinksAndJumpsToTheExactSum.2 0 s.cfg.ecallLink 0 u
  refine ⟨v, hv, ?_, sameRegs_of_regWritten_zero hregs, hmem⟩
  have hpc : v.pc = u.getReg s.cfg.ecallLink := hcommit.pc.trans (by simp)
  rw [hpc, hkept, hwritten]
  by_cases h0 : s.cfg.ecallLink = 0
  · simp [h0]
  · simp [h0]

/-- Settles O59: the rows fix opcode and funct3 only, and the commit is all there is to each. -/
theorem fencesAreNoOps : Obligations.FencesAreNoOps :=
  ⟨fun w => decode_of_fits w .fence, fun w => decode_of_fits w .fenceI,
    onlyGoesTo_of_exec (fun _ => rfl) fun _ => rfl, onlyGoesTo_of_exec (fun _ => rfl) fun _ => rfl⟩

/-- Settles O60: fault entry is all there is to each, whatever its operands. -/
theorem csrInstructionsAreUnsupported : Obligations.CsrInstructionsAreUnsupported :=
  ⟨⟨fun w => decode_of_fits w .csrrw, fun w => decode_of_fits w .csrrs, fun w => decode_of_fits w .csrrc,
    fun w => decode_of_fits w .csrrwi, fun w => decode_of_fits w .csrrsi, fun w => decode_of_fits w .csrrci⟩,
    fun _ _ _ _ _ => ⟨rfl, rfl, rfl, rfl, rfl, rfl⟩⟩

end Sys2Proof.Machine
end

section
/-! PROOF. The results of the ALU instructions as integers (46_alu_immediate.md; 47_alu_register.md; 48_muldiv.md). -/

namespace Sys2Proof.Machine

/-! ### Words as numbers -/

theorem boolWord_eq_ite {b : Bool} {P : Prop} [Decidable P] (h : b = true ↔ P) :
    boolWord b = if P then 1#32 else 0#32 := if_congr h rfl rfl

theorem toInt_u32_of_bounds {imm : Int} (hlow : -2048 ≤ imm) (hhigh : imm ≤ 2047) : (u32 imm).toInt = imm := by
  rw [u32, BitVec.toInt_ofInt, Int.bmod_def]
  omega

theorem shiftLeft_eq_ofNat (a : Word) (n : Nat) : a <<< n = BitVec.ofNat 32 (a.toNat * 2 ^ n) := by
  apply BitVec.eq_of_toNat_eq
  rw [BitVec.toNat_shiftLeft, Nat.shiftLeft_eq, BitVec.toNat_ofNat]

theorem ushiftRight_eq_ofNat (a : Word) (n : Nat) : a >>> n = BitVec.ofNat 32 (a.toNat / 2 ^ n) := by
  apply BitVec.eq_of_toNat_eq
  rw [BitVec.toNat_ushiftRight, Nat.shiftRight_eq_div_pow, BitVec.toNat_ofNat,
    Nat.mod_eq_of_lt (Nat.lt_of_le_of_lt (Nat.div_le_self ..) a.isLt)]

theorem sshiftRight_eq_ofInt (a : Word) (n : Nat) : a.sshiftRight n = BitVec.ofInt 32 (a.toInt / 2 ^ n) := by
  rw [BitVec.sshiftRight, Int.shiftRight_eq_div_pow]
  norm_cast

theorem add_eq_ofNat (a b : Word) : a + b = BitVec.ofNat 32 (a.toNat + b.toNat) := by
  apply BitVec.eq_of_toNat_eq
  simp

theorem sub_eq_ofInt (a b : Word) : a - b = BitVec.ofInt 32 (a.toNat - b.toNat) := by
  rw [Int.sub_eq_add_neg, BitVec.ofInt_add, BitVec.ofInt_neg, BitVec.sub_eq_add_neg]
  simp

theorem mul_eq_ofNat (a b : Word) : a * b = BitVec.ofNat 32 (a.toNat * b.toNat) := by
  apply BitVec.eq_of_toNat_eq
  simp

theorem mul_eq_ofInt (a b : Word) : a * b = BitVec.ofInt 32 (a.toInt * b.toInt) := by
  rw [BitVec.ofInt_mul, BitVec.ofInt_toInt, BitVec.ofInt_toInt]

/-! ### Register and immediate -/

/-- Settles O47: the sum wraps, and an immediate in range keeps its value as a word read as signed. -/
theorem addiAndSltiResults : Obligations.AddiAndSltiResults := by
  refine ⟨fun w => decode_of_fits w .addi, fun w => decode_of_fits w .slti, fun rd rs1 imm hlow hhigh => ⟨?_, ?_⟩⟩
  · exact computes_of_exec (fun _ => rfl) fun s => add_u32 (s.getReg rs1) imm
  · refine computes_of_exec (fun _ => rfl) fun s => boolWord_eq_ite ?_
    rw [condLt_iff, toInt_u32_of_bounds hlow hhigh]

/-- Settles O48: the sign-extended immediate is the number `imm` modulo 2^32. -/
theorem unsignedCompareAndLogicalImmediateResults : Obligations.UnsignedCompareAndLogicalImmediateResults := by
  refine ⟨fun w => decode_of_fits w .sltiu, fun w => decode_of_fits w .xori, fun w => decode_of_fits w .ori,
    fun w => decode_of_fits w .andi, fun rd rs1 imm => ⟨?_, ?_, ?_, ?_⟩⟩
  · refine computes_of_exec (fun _ => rfl) fun s => boolWord_eq_ite ?_
    rw [condLtu_iff, ← toNat_u32, Nat.cast_lt]
  · exact computes_of_exec (fun _ => rfl) fun _ => rfl
  · exact computes_of_exec (fun _ => rfl) fun _ => rfl
  · exact computes_of_exec (fun _ => rfl) fun _ => rfl

/-- Settles O49: the shifts of a word are a product and floors of its number, unsigned or signed. -/
theorem immediateShiftResults : Obligations.ImmediateShiftResults :=
  ⟨fun w => decode_of_fits w .slli, fun w => decode_of_fits w .srli, fun w => decode_of_fits w .srai,
    fun _ _ shamt => ⟨computes_of_exec (fun _ => rfl) fun _ => shiftLeft_eq_ofNat _ shamt.val,
      computes_of_exec (fun _ => rfl) fun _ => ushiftRight_eq_ofNat _ shamt.val,
      computes_of_exec (fun _ => rfl) fun _ => sshiftRight_eq_ofInt _ shamt.val⟩⟩

/-! ### Register and register -/

/-- Settles O50: words add and subtract as their numbers modulo 2^32, and compare as their numbers. -/
theorem registerAluResults : Obligations.RegisterAluResults := by
  refine ⟨⟨fun w => decode_of_fits w .add, fun w => decode_of_fits w .sub, fun w => decode_of_fits w .slt,
    fun w => decode_of_fits w .sltu, fun w => decode_of_fits w .xor, fun w => decode_of_fits w .or,
    fun w => decode_of_fits w .and⟩, fun rd rs1 rs2 => ⟨?_, ?_, ?_, ?_, ?_, ?_, ?_⟩⟩
  · exact computes_of_exec (fun _ => rfl) fun _ => add_eq_ofNat _ _
  · exact computes_of_exec (fun _ => rfl) fun _ => sub_eq_ofInt _ _
  · exact computes_of_exec (fun _ => rfl) fun _ => boolWord_eq_ite (condLt_iff _ _)
  · exact computes_of_exec (fun _ => rfl) fun _ => boolWord_eq_ite (condLtu_iff _ _)
  · exact computes_of_exec (fun _ => rfl) fun _ => rfl
  · exact computes_of_exec (fun _ => rfl) fun _ => rfl
  · exact computes_of_exec (fun _ => rfl) fun _ => rfl

/-- Settles O51: the amount is the number of the low five bits. -/
theorem registerShiftResults : Obligations.RegisterShiftResults := by
  refine ⟨fun w => decode_of_fits w .sll, fun w => decode_of_fits w .srl, fun w => decode_of_fits w .sra,
    fun rd rs1 rs2 => ⟨?_, ?_, ?_⟩⟩
  · exact computes_of_exec (fun _ => rfl) fun s => by rw [shiftLeft_eq_ofNat, shiftAmount_eq]
  · exact computes_of_exec (fun _ => rfl) fun s => by rw [ushiftRight_eq_ofNat, shiftAmount_eq]
  · exact computes_of_exec (fun _ => rfl) fun s => by rw [sshiftRight_eq_ofInt, shiftAmount_eq]

/-! ### Multiply and divide -/

/-- Settles O52: the low word of a product does not depend on how the factors are read. -/
theorem mulIsTheLowWord : Obligations.MulIsTheLowWord :=
  ⟨fun w => decode_of_fits w .mul, fun _ _ _ => ⟨computes_of_exec (fun _ => rfl) fun _ => mul_eq_ofNat _ _,
    computes_of_exec (fun _ => rfl) fun _ => mul_eq_ofInt _ _⟩⟩

theorem toInt_eq_zero_iff (b : Word) : b.toInt = 0 ↔ b = 0 := by
  rw [← BitVec.toInt_inj]
  rfl

theorem toNat_eq_zero_iff (b : Word) : b.toNat = 0 ↔ b = 0 := by
  rw [← BitVec.toNat_inj]
  rfl

/-- Settles O53: the model's own case distinction, with the divisor tested as a number. -/
theorem divisionResults : Obligations.DivisionResults := by
  refine ⟨⟨fun w => decode_of_fits w .div, fun w => decode_of_fits w .divu, fun w => decode_of_fits w .rem,
    fun w => decode_of_fits w .remu⟩, fun rd rs1 rs2 => ⟨?_, ?_, ?_, ?_⟩⟩
  · exact computes_of_exec (fun _ => rfl) fun _ => if_congr (toInt_eq_zero_iff _).symm rfl rfl
  · exact computes_of_exec (fun _ => rfl) fun _ => if_congr (toNat_eq_zero_iff _).symm rfl rfl
  · exact computes_of_exec (fun _ => rfl) fun _ => if_congr (toInt_eq_zero_iff _).symm rfl rfl
  · exact computes_of_exec (fun _ => rfl) fun _ => if_congr (toNat_eq_zero_iff _).symm rfl rfl

/-! ### Quotient and remainder -/

/-- Without overflow the quotient fits a signed word. -/
theorem toInt_divSigned {a b : Word} (hb : b ≠ 0) (ho : ¬ (a.toInt = -2 ^ 31 ∧ b.toInt = -1)) :
    (divSigned a b).toInt = a.toInt.tdiv b.toInt := by
  have hfits : a ≠ BitVec.intMin 32 ∨ b ≠ -1#32 := by
    rw [← not_and_or]
    rintro ⟨rfl, rfl⟩
    exact ho (by decide)
  have hsdiv : (a.sdiv b).toInt = a.toInt.tdiv b.toInt := BitVec.toInt_sdiv_of_ne_or_ne a b hfits
  have hdiv : divSigned a b = u32 (a.toInt.tdiv b.toInt) := (if_neg hb).trans (if_neg ho)
  rw [hdiv, ← hsdiv, u32, BitVec.ofInt_toInt]

/-- The remainder always fits. -/
theorem toInt_remSigned {a b : Word} (hb : b ≠ 0) (ho : ¬ (a.toInt = -2 ^ 31 ∧ b.toInt = -1)) :
    (remSigned a b).toInt = a.toInt.tmod b.toInt := by
  have hrem : remSigned a b = u32 (a.toInt - b.toInt * a.toInt.tdiv b.toInt) := (if_neg hb).trans (if_neg ho)
  rw [hrem, ← Int.tmod_def, ← BitVec.toInt_srem, u32, BitVec.ofInt_toInt]

theorem toNat_divUnsigned {a b : Word} (hb : b ≠ 0) : (divUnsigned a b).toNat = a.toNat / b.toNat := by
  rw [divUnsigned, if_neg hb, BitVec.toNat_ofNat,
    Nat.mod_eq_of_lt (Nat.lt_of_le_of_lt (Nat.div_le_self ..) a.isLt)]

theorem toNat_remUnsigned {a b : Word} (hb : b ≠ 0) : (remUnsigned a b).toNat = a.toNat % b.toNat := by
  rw [remUnsigned, if_neg hb, BitVec.toNat_ofNat,
    Nat.mod_eq_of_lt (Nat.lt_of_le_of_lt (Nat.mod_le ..) a.isLt)]

theorem tmod_nonpos_of_nonpos {a : Int} (b : Int) (h : a ≤ 0) : a.tmod b ≤ 0 := by
  have hneg : 0 ≤ (-a).tmod b := Int.tmod_nonneg b (Int.neg_nonneg.mpr h)
  rw [Int.neg_tmod] at hneg
  exact Int.neg_nonneg.mp hneg

/-- Settles O54: the four values are `tdiv`, `tmod`, `/` and `%` of the numbers. -/
theorem quotientAndRemainderFitTogether : Obligations.QuotientAndRemainderFitTogether := by
  intro a b hb
  have hpos : 0 < b.toNat := Nat.pos_of_ne_zero (mt (toNat_eq_zero_iff b).mp hb)
  have hposInt : 0 < b.toInt.natAbs := Int.natAbs_pos.mpr (mt (toInt_eq_zero_iff b).mp hb)
  rw [toNat_divUnsigned hb, toNat_remUnsigned hb]
  refine ⟨fun ho => ?_, (Nat.div_add_mod ..).symm, Nat.mod_lt _ hpos⟩
  rw [toInt_divSigned hb ho, toInt_remSigned hb ho, Int.natAbs_tmod]
  refine ⟨(Int.mul_tdiv_add_tmod ..).symm, Nat.mod_lt _ hposInt, fun h => ?_, fun h => ?_⟩
  · exact Int.not_le.mp fun hle => Int.not_le.mpr h (tmod_nonpos_of_nonpos _ hle)
  · exact Int.not_le.mp fun hle => Int.not_le.mpr h (Int.tmod_nonneg _ hle)

end Sys2Proof.Machine
end
